-- ==== Sys2Proof/Word.lean ====
section
/-! DEFINITION. The bit-vector widths of the block (00_scope.md R4): bit 0 is the least significant bit (R5). -/

namespace Sys2Proof

/-- A payload byte, a PID, an accumulator value, a checksum or a command's argument: 8 bits. -/
abbrev Byte := BitVec 8

/-- A LIN identifier, 6 bits, 0..63 (`ID_W`). -/
abbrev Ident := BitVec 6

/-- A command word on the `cmd` port, 12 bits (`CMD_W`, 30_encoding.md R40). -/
abbrev CmdWord := BitVec 12

/-- The opcode field of a command word, 4 bits. -/
abbrev Opcode := BitVec 4

/-- A response word on the `resp` port, 11 bits (`RESP_W`, 30_encoding.md R41). -/
abbrev RespWord := BitVec 11

/-- A fault or status code, 3 bits (`ERR_W`). -/
abbrev Code := BitVec 3

/-- The payload byte counter `CNT`, 4 bits (`CNT_W`). -/
abbrev Count := BitVec 4

end Sys2Proof
end

