-- ==== Sys2Proof/Syntax.lean ====
section
/-! DEFINITION. The six commands, one constructor per row of spec/opcode_table.json, and the lines of the assembler
of 30_encoding.md R48 and R49. -/

namespace Sys2Proof

/-- The commands of 30_encoding.md R42. Each keeps its 8-bit argument, the ignored ones too (R46, log entry 7), so
that an encoded command decodes to itself. -/
inductive Instr where
  /-- `NOP`, op 0x0 (42_misc.md R110); the argument is not read. -/
  | nop (arg : Byte)
  /-- `PIDGEN id`, op 0x1 (40_pid.md R67). -/
  | pidgen (arg : Byte)
  /-- `CKINIT.C`, op 0x2 (41_checksum.md R94); the argument is not read. -/
  | ckinitC (arg : Byte)
  /-- `CKINIT.E pid`, op 0x3 (41_checksum.md R95). -/
  | ckinitE (pid : Byte)
  /-- `CKADD b`, op 0x4 (41_checksum.md R96). -/
  | ckadd (b : Byte)
  /-- `CKFIN`, op 0x5 (41_checksum.md R97); the argument is not read. -/
  | ckfin (arg : Byte)
deriving DecidableEq, Repr

/-- The mnemonics an assembler line can name (30_encoding.md R48). -/
inductive Mnemonic where
  | nop
  | pidgen
  | ckinitC
  | ckinitE
  | ckadd
  | ckfin
deriving DecidableEq, Repr

/-- One assembler line (30_encoding.md R48, R49). Operands are numbers as written, before any range check. -/
inductive AsmLine where
  /-- `MNEMONIC` or `MNEMONIC operand`. -/
  | command (m : Mnemonic) (operand : Option Nat)
  /-- `.word w`, a 12-bit word as it stands. -/
  | word (w : Nat)
  /-- `CKSUM.C b1, ..., bn`. -/
  | cksumC (payload : List Nat)
  /-- `CKSUM.E pid, b1, ..., bn`. -/
  | cksumE (pid : Nat) (payload : List Nat)
  /-- `RESET`, the reset event between two commands; it has no command word. -/
  | reset
deriving DecidableEq, Repr

end Sys2Proof
end

