-- ==== Sys2Proof/Config.lean ====
section
/-! DEFINITION. The parameters of 00_scope.md R4, and the two values the spec leaves open, which have no body. -/

namespace Sys2Proof.Config

/-- `MAX_ID`, the largest LIN identifier (R4). -/
abbrev maxId : Nat := 63

/-- `LEN_MIN`, the shortest payload (R4). -/
abbrev lenMin : Nat := 1

/-- `LEN_MAX`, the longest payload (R4). -/
abbrev lenMax : Nat := 8

/-- The largest value of the accumulator: a sum that exceeds it is folded (41_checksum.md R81). -/
abbrev foldLimit : Nat := 255

/-- `FOLD_K`, the amount subtracted when a sum exceeds `foldLimit` (R4). -/
abbrev foldAmount : Nat := 255

/-- `T_CMD`, the time a command takes: OPEN, and no rule reads it (R4, 70_reset_and_hazards.md R151, D25).
Nothing in the model reads it either (log entry 6). -/
opaque tCmd : Nat

/-- FREE VALUE, DESIGN CHOICE (log entry 4), safe. What `CNT` holds after a `CKADD` that finds it at 15: the sum, 16,
does not fit the 4-bit register and the spec states no result, because `CNT` never passes 8
(10_state.md R12, R23). -/
opaque cntAfterFifteen : Count

end Sys2Proof.Config
end

