-- ==== Sys2Proof/WellFormed.lean ====
section
/-! DEFINITION. Which command words, instructions and assembler lines are well formed. -/

namespace Sys2Proof

/-- A command word carries an assigned opcode, 0x0 to 0x5; the others are reserved (30_encoding.md R42, R45). -/
def wordWellFormed (w : CmdWord) : Bool := decide (w.toNat / 256 ≤ 5)

/-- Every instruction is well formed: all 256 arguments of every command are legal encodings, and a `PIDGEN` above 63
is a legal encoding that faults (30_encoding.md R46, spec/opcode_table.json). -/
def instrWellFormed (i : Instr) : Bool :=
  match i with
  | .nop _ => true
  | .pidgen _ => true
  | .ckinitC _ => true
  | .ckinitE _ => true
  | .ckadd _ => true
  | .ckfin _ => true

/-- A written operand fits the 8-bit argument field (30_encoding.md R48; for the commands that ignore it
DEDUCED, log entry 8, safe). -/
def operandFits (n : Nat) : Bool := decide (n < 256)

/-- A payload has 1 to 8 bytes and every one of them fits a byte (30_encoding.md R49). -/
def payloadFits (payload : List Nat) : Bool :=
  decide (Config.lenMin ≤ payload.length) && decide (payload.length ≤ Config.lenMax) &&
    payload.all operandFits

/-- The lines an assembler accepts: "An assembler must refuse `n = 0` and `n > 8`" (30_encoding.md R48, R49). An omitted
operand is 0x00. -/
def lineWellFormed (l : AsmLine) : Bool :=
  match l with
  | .command _ operand => operandFits (operand.getD 0)
  | .word w => decide (w < 4096)
  | .cksumC payload => payloadFits payload
  | .cksumE pid payload => operandFits pid && payloadFits payload
  | .reset => true

end Sys2Proof
end

