-- ==== Sys2Proof/Decode.lean ====
section
/-! DEFINITION. The command word's fields, the decoder, total on all 4096 words and rejecting a reserved opcode by name,
and the encoder (30_encoding.md R40 to R47, spec/opcode_table.json). -/

namespace Sys2Proof

/-- Why a command word is no command. -/
inductive Reject where
  /-- The opcode is one of the reserved 0x6 to 0xF (30_encoding.md R45). -/
  | reservedOpcode (op : Opcode)
deriving DecidableEq, Repr

/-- `op = cmd[11:8]` (30_encoding.md R40). -/
def opField (w : CmdWord) : Opcode := w.extractLsb' 8 4

/-- `arg = cmd[7:0]` (30_encoding.md R40). -/
def argField (w : CmdWord) : Byte := w.extractLsb' 0 8

/-- The opcode map of 30_encoding.md R42. Only `op` selects the command; a word no row takes is reserved (R45). -/
def decode (w : CmdWord) : Except Reject Instr :=
  if opField w = 0x0#4 then .ok (.nop (argField w))
  else if opField w = 0x1#4 then .ok (.pidgen (argField w))
  else if opField w = 0x2#4 then .ok (.ckinitC (argField w))
  else if opField w = 0x3#4 then .ok (.ckinitE (argField w))
  else if opField w = 0x4#4 then .ok (.ckadd (argField w))
  else if opField w = 0x5#4 then .ok (.ckfin (argField w))
  else .error (.reservedOpcode (opField w))

/-- The opcode of each command (30_encoding.md R42). -/
def opcodeOf (i : Instr) : Opcode :=
  match i with
  | .nop _ => 0x0#4
  | .pidgen _ => 0x1#4
  | .ckinitC _ => 0x2#4
  | .ckinitE _ => 0x3#4
  | .ckadd _ => 0x4#4
  | .ckfin _ => 0x5#4

/-- The argument each command carries. -/
def operandOf (i : Instr) : Byte :=
  match i with
  | .nop arg => arg
  | .pidgen arg => arg
  | .ckinitC arg => arg
  | .ckinitE pid => pid
  | .ckadd b => b
  | .ckfin arg => arg

/-- The command word of a command, `oooo aaaaaaaa` (30_encoding.md R40, R48). -/
def encode (i : Instr) : CmdWord := opcodeOf i ++ operandOf i

/-- The instruction the decoder reads from a word numbered as spec/opcode_table.json numbers it. A command is one 12-bit
word, so the bits above bit 11 (padding to whole bytes) do not exist on the `cmd` port and are dropped
(DESIGN CHOICE, log entry 1), as `Machine.State.withFetchWord` drops them. -/
def decodeTableWord (nbits w : Nat) : Option Instr :=
  match decode (BitVec.ofNat 12 (w % 2 ^ nbits)) with
  | .ok i => some i
  | .error _ => none

end Sys2Proof
end

