-- ==== Sys2Proof/Machine/ChecksumFunction.lean ====
section
/-! DEFINITION. The checksum as the function the source document gives: end-around-carry addition, the folded sum, its
complement, and the 16-bit carry folding that is an equal alternative (41_checksum.md R80 to R90). -/

namespace Sys2Proof.Machine

/-- What a natural-number sum of two bytes folds to: "whenever the accumulator exceeds 255, subtract 255"
(41_checksum.md R81). -/
def foldSum (t : Nat) : Nat :=
  if t > Config.foldLimit then t - Config.foldAmount else t

/-- `eac_add(a, b)`, 8-bit addition with end-around carry (41_checksum.md R81). -/
def eacAdd (a b : Byte) : Byte := BitVec.ofNat 8 (foldSum (a.toNat + b.toNat))

/-- `acc_k`: the accumulator after the bytes of `payload`, begun at `start` (41_checksum.md R80). -/
def accAfter (start : Byte) (payload : List Byte) : Byte := payload.foldl eacAdd start

/-- `acc_0`: the PID for the enhanced variant, 0 for the classic one (41_checksum.md R80, R82). -/
def accStart (pid : Byte) (enhanced : Bool) : Byte := if enhanced then pid else 0x00#8

/-- `~_8(acc)`, that is `255 - acc` (41_checksum.md R83). -/
def complement (acc : Byte) : Byte := ~~~acc

/-- The payload has 1 to 8 bytes (41_checksum.md R84). -/
def lengthInDomain (n : Nat) : Bool := decide (Config.lenMin ≤ n ∧ n ≤ Config.lenMax)

/-- `checksum(pid, payload, enhanced)` (41_checksum.md R80). "The function is not defined for `n = 0` or `n > 8`" (R84):
there it answers `none` (DEDUCED, log entry 13, safe). -/
def checksum (pid : Byte) (payload : List Byte) (enhanced : Bool) : Option Byte :=
  if lengthInDomain payload.length then
    some (complement (accAfter (accStart pid enhanced) payload))
  else none

/-- `S`, the natural-number sum of all included bytes (41_checksum.md section 2). -/
def includedSum (pid : Byte) (payload : List Byte) (enhanced : Bool) : Nat :=
  (accStart pid enhanced).toNat + (payload.map BitVec.toNat).sum

/-- One pass of 16-bit carry folding: `T[7:0] + (T >> 8)` (41_checksum.md R90). -/
def foldPass (t : Nat) : Nat := t % 256 + t / 256

/-- The loop `while T > 255: T = T[7:0] + (T >> 8)` (41_checksum.md R90), at most `fuel` passes (log entry 12). -/
def foldLoop : Nat → Nat → Nat
  | 0, t => t
  | fuel + 1, t => if t > 255 then foldLoop fuel (foldPass t) else t

/-- 16-bit carry folding of `S`. A pass makes a value above 255 smaller, so `S` passes are enough (41_checksum.md R90). -/
def carryFold (total : Nat) : Nat := foldLoop total total

end Sys2Proof.Machine
end

