-- ==== Sys2Proof/Machine/State.lean ====
section
/-! DEFINITION. The block's state (10_state.md R10), the two ends of its ports that the model keeps beside it, the
response, and the reset state (10_state.md R22). -/

namespace Sys2Proof.Machine

/-- `PHASE`, 1 bit: whether a checksum is in progress (10_state.md R13). -/
inductive Phase where
  /-- `IDLE` = 0: no checksum in progress. -/
  | idle
  /-- `ACCUM` = 1: a checksum is being accumulated. -/
  | accum
deriving DecidableEq, Repr

/-- The spec's faults (60_exceptions.md R121). Each is recorded in `ERR` and is a next state of the machine, not an
`Outcome.fault` (log entry 5). -/
inductive FaultKind where
  /-- `E_RANGE`: `PIDGEN` with an identifier above 63 (R122). -/
  | eRange
  /-- `E_LEN`: a payload length outside 1..8 (R123). -/
  | eLen
  /-- `E_SEQ`: `CKADD` or `CKFIN` with no checksum in progress (R124). -/
  | eSeq
  /-- `E_ILLEGAL`: a reserved opcode (R125). -/
  | eIllegal
deriving DecidableEq, Repr

/-- The `status` of a response (30_encoding.md R44); codes 5 and 6 are never produced and have no name (log entry 11). -/
inductive Status where
  /-- `OK`: the command was carried out. -/
  | ok
  /-- The command raised this fault. -/
  | raised (f : FaultKind)
  /-- `E_FAULTED`: the block was already faulted when the command arrived (60_exceptions.md R126). -/
  | eFaulted
deriving DecidableEq, Repr

/-- One response: a status and a value (30_encoding.md R41). -/
structure Resp where
  /-- The status, bits 10:8 of the response word. -/
  status : Status
  /-- The value, bits 7:0 of the response word. -/
  value : Byte
deriving DecidableEq, Repr

/-- The two things a host can do to the block (70_reset_and_hazards.md R153). -/
inductive HostMove where
  /-- One 12-bit word on the `cmd` port. -/
  | command (w : CmdWord)
  /-- A reset event on the `rst` port. -/
  | reset
deriving DecidableEq, Repr

/-- The state of 10_state.md R10 (`acc`, `cnt`, `phase`, `err`: "There is no other state"), and two fields of the
MODEL'S OWN that stand for what is at the other end of the ports (DESIGN CHOICE, log entries 1 and 2). -/
structure State where
  /-- `ACC`, the checksum accumulator after folding (10_state.md R11). -/
  acc : Byte
  /-- `CNT`, the payload bytes added since the last `CKINIT` (10_state.md R12). -/
  cnt : Count
  /-- `PHASE` (10_state.md R13). -/
  phase : Phase
  /-- `ERR`, the sticky fault code, 0 when the block is not faulted (10_state.md R14). -/
  err : Code
  /-- The model's own: the moves the host has still to make, the next one first (log entry 1). -/
  input : List HostMove
  /-- The model's own: the responses the host has received, the oldest first (log entry 2). The block never reads it. -/
  responses : List Resp
deriving DecidableEq, Repr

/-- The reset state: `ACC = 0x00, CNT = 0, PHASE = IDLE, ERR = 0` (10_state.md R22), nothing sent and nothing received. -/
def State.reset : State where
  acc := 0x00#8
  cnt := 0#4
  phase := .idle
  err := 0#3
  input := []
  responses := []

/-- What stops the machine: nothing. `step` is total and "the block cannot hang" (10_state.md R20,
70_reset_and_hazards.md R152); the spec's faults are next states (log entry 5). So this type has no constructor, and
nobody raises it. -/
inductive Fault where
deriving DecidableEq, Repr

/-- Why an instruction has no meaning in the model. -/
inductive Refusal where
  /-- The instruction of this mnemonic has no meaning yet. Raised by an arm of `exec` alone; every instruction has its
  meaning, so no arm raises it now. Safe: the machine stops where the hardware goes on. -/
  | notModelled (mnemonic : String)
deriving DecidableEq, Repr

end Sys2Proof.Machine
end

