-- ==== Sys2Proof/Machine/Flags.lean ====
section
/-! DEFINITION. The codes of `ERR`, the block's only status flag, of the response's status and of `PHASE`, and the response
word (10_state.md R13, R14, 30_encoding.md R41, R44, 60_exceptions.md R121). -/

namespace Sys2Proof.Machine

/-- The code a fault writes to `ERR` (60_exceptions.md R121). -/
def faultCode (f : FaultKind) : Code :=
  match f with
  | .eRange => 1#3
  | .eLen => 2#3
  | .eSeq => 3#3
  | .eIllegal => 4#3

/-- The code of a status in the response word (30_encoding.md R44). -/
def statusCode (st : Status) : Code :=
  match st with
  | .ok => 0#3
  | .raised f => faultCode f
  | .eFaulted => 7#3

/-- The response word `sss vvvvvvvv` (30_encoding.md R41). -/
def respWord (r : Resp) : RespWord := statusCode r.status ++ r.value

/-- The bit `PHASE` holds: `IDLE` = 0, `ACCUM` = 1 (10_state.md R10). -/
def phaseBit (p : Phase) : BitVec 1 :=
  match p with
  | .idle => 0#1
  | .accum => 1#1

/-- The block is faulted: `ERR != 0` (60_exceptions.md R120). -/
def faulted (s : State) : Bool := s.err != 0#3

/-- `zext_8(ERR)`, the value a faulted block answers with (60_exceptions.md R129). -/
def errValue (s : State) : Byte := s.err.setWidth 8

end Sys2Proof.Machine
end

