-- ==== Sys2Proof/Machine/Ops.lean ====
section
/-! DEFINITION. The named operations over the state: responding, raising a fault (60_exceptions.md R128), the faulted
block's answer (R129), the reset event (70_reset_and_hazards.md R140) that is the only return from it, and the three
operations on a checksum in progress. -/

namespace Sys2Proof.Machine

/-- `respond(st, v)`: the step's one response (00_scope.md R7), given to the host. -/
def respond (st : Status) (v : Byte) (s : State) : State :=
  { s with responses := s.responses ++ [⟨st, v⟩] }

/-- `raise <Fault>`, fault entry: the code goes to `ERR`, the response is the code with value 0x00, and `ACC`, `CNT` and
`PHASE` are unchanged (60_exceptions.md R128). There is no handler and nothing is saved. -/
def raiseFault (f : FaultKind) (s : State) : State :=
  respond (.raised f) 0x00#8 { s with err := faultCode f }

/-- What a block that is already faulted does with every command (60_exceptions.md R129). -/
def answerFaulted (s : State) : State := respond .eFaulted (errValue s) s

/-- The first check of every command: a faulted block answers `E_FAULTED` and looks at nothing else
(30_encoding.md R50, 60_exceptions.md R127). -/
def unlessFaulted (body : State → State) (s : State) : State :=
  if faulted s then answerFaulted s else body s

/-- The reset event: the block's state becomes the reset state whatever it was, and there is no response
(70_reset_and_hazards.md R140). The host keeps what it received and goes on with the moves it has still to make. -/
def resetBlock (s : State) : State :=
  { State.reset with input := s.input, responses := s.responses }

/-- `CNT + 1`. At 15 the sum does not fit the register and the spec states no result: a free value (log entry 4). -/
def cntSucc (c : Count) : Count := if c = 15#4 then Config.cntAfterFifteen else c + 1#4

/-- Begin a checksum at `start`, abandoning one in progress (41_checksum.md R94, R95). -/
def startSum (start : Byte) (s : State) : State :=
  { s with acc := start, cnt := 0#4, phase := .accum }

/-- Fold one payload byte in and count it (41_checksum.md R96). -/
def addByte (b : Byte) (s : State) : State :=
  { s with acc := eacAdd s.acc b, cnt := cntSucc s.cnt }

/-- End the checksum; `ACC` and `CNT` keep their values (41_checksum.md R97). -/
def endSum (s : State) : State := { s with phase := .idle }

/-- What a command word with a reserved opcode does (30_encoding.md R45, 60_exceptions.md R125). -/
def illegalCommand (s : State) : State := unlessFaulted (raiseFault .eIllegal) s

end Sys2Proof.Machine
end

