-- ==== Sys2Proof/Machine/Checksum.lean ====
section
/-! DEFINITION. The meanings of `CKINIT.C`, `CKINIT.E`, `CKADD` and `CKFIN` (41_checksum.md section 3). -/

namespace Sys2Proof.Machine

/-- `CKINIT.C`: start a classic checksum at 0, in either phase; the argument is not read (41_checksum.md R94). -/
def execCkinitC (_arg : Byte) (s : State) : Host.Outcome State Fault Refusal :=
  .next (unlessFaulted (fun s => respond .ok 0x00#8 (startSum 0x00#8 s)) s)

/-- `CKINIT.E pid`: start an enhanced checksum at the PID, any byte, its parity not checked, in either phase
(41_checksum.md R95, R85). -/
def execCkinitE (pid : Byte) (s : State) : Host.Outcome State Fault Refusal :=
  .next (unlessFaulted (fun s => respond .ok 0x00#8 (startSum pid s)) s)

/-- `CKADD b`: add one payload byte; `E_SEQ` with no checksum in progress, checked first, `E_LEN` for a ninth byte
(41_checksum.md R96). -/
def execCkadd (b : Byte) (s : State) : Host.Outcome State Fault Refusal :=
  .next (unlessFaulted (fun s =>
    if s.phase = .idle then raiseFault .eSeq s
    else if s.cnt = 8#4 then raiseFault .eLen s
    else respond .ok 0x00#8 (addByte b s)) s)

/-- `CKFIN`: return the complement of the accumulator and end the checksum; `E_SEQ` with no checksum in progress,
checked first, `E_LEN` after no `CKADD`; the argument is not read (41_checksum.md R97). -/
def execCkfin (_arg : Byte) (s : State) : Host.Outcome State Fault Refusal :=
  .next (unlessFaulted (fun s =>
    if s.phase = .idle then raiseFault .eSeq s
    else if s.cnt = 0#4 then raiseFault .eLen s
    else endSum (respond .ok (complement s.acc) s)) s)

end Sys2Proof.Machine
end

