-- ==== Sys2Proof/Machine/Misc.lean ====
section
/-! DEFINITION. The meaning of `NOP` (42_misc.md). -/

namespace Sys2Proof.Machine

/-- `NOP`: respond `OK:0x00` and write no state; the argument is not read (42_misc.md R110). -/
def execNop (_arg : Byte) (s : State) : Host.Outcome State Fault Refusal :=
  .next (unlessFaulted (respond .ok 0x00#8) s)

end Sys2Proof.Machine
end

