-- ==== Sys2Proof/Machine/Operands.lean ====
section
/-! DEFINITION. The operand forms of 30_encoding.md R43: the argument as it stands, or the identifier in its low six
bits with the two high bits as the out-of-range detector. -/

namespace Sys2Proof.Machine

/-- `id = arg[5:0]` (30_encoding.md R43). -/
def identOf (arg : Byte) : Ident := arg.extractLsb' 0 6

/-- `arg <= 63`, the same test as `arg[7:6] = 0b00` (30_encoding.md R43, 40_pid.md R67). -/
def identInRange (arg : Byte) : Bool := decide (arg.toNat ≤ Config.maxId)

end Sys2Proof.Machine
end

