-- ==== Sys2Proof/Machine/PidFunction.lean ====
section
/-! DEFINITION. The function `pid_from_id` by its parity formulas (40_pid.md R60 to R63), and the 64-entry table
`PIDTAB` as 40_pid.md R65 prints it. -/

namespace Sys2Proof.Machine

/-- The first parity bit: even parity over ID bits 0, 1, 2 and 4 (40_pid.md R61). -/
def parity0 (id : Ident) : Bool :=
  ((id.getLsbD 0 ^^ id.getLsbD 1) ^^ id.getLsbD 2) ^^ id.getLsbD 4

/-- The second parity bit: inverted parity over ID bits 1, 3, 4 and 5 (40_pid.md R62). -/
def parity1 (id : Ident) : Bool :=
  !(((id.getLsbD 1 ^^ id.getLsbD 3) ^^ id.getLsbD 4) ^^ id.getLsbD 5)

/-- `pid_from_id(id)`: the identifier in bits 5:0, `p0` in bit 6 and `p1` in bit 7 (40_pid.md R60, and R63 for which
parity bit goes where: UNVERIFIED against the original table, log entry 10, unsafe). -/
def pidFromId (id : Ident) : Byte :=
  BitVec.ofBool (parity1 id) ++ BitVec.ofBool (parity0 id) ++ id

/-- The rows 0x00 to 0x18 of the table of 40_pid.md R65. -/
def pidTableLow : List Byte :=
  [0x80, 0xC1, 0x42, 0x03, 0xC4, 0x85, 0x06, 0x47,
   0x08, 0x49, 0xCA, 0x8B, 0x4C, 0x0D, 0x8E, 0xCF,
   0x50, 0x11, 0x92, 0xD3, 0x14, 0x55, 0xD6, 0x97,
   0xD8, 0x99, 0x1A, 0x5B, 0x9C, 0xDD, 0x5E, 0x1F]

/-- The rows 0x20 to 0x38 of the table of 40_pid.md R65. -/
def pidTableHigh : List Byte :=
  [0x20, 0x61, 0xE2, 0xA3, 0x64, 0x25, 0xA6, 0xE7,
   0xA8, 0xE9, 0x6A, 0x2B, 0xEC, 0xAD, 0x2E, 0x6F,
   0xF0, 0xB1, 0x32, 0x73, 0xB4, 0xF5, 0x76, 0x37,
   0x78, 0x39, 0xBA, 0xFB, 0x3C, 0x7D, 0xFE, 0xBF]

/-- `PIDTAB`, 64 entries; entry `i` is the PID of identifier `i` (10_state.md R17, 40_pid.md R65). The meaning of
`PIDGEN` uses the formula; an obligation says that the table is the same function (40_pid.md R66). -/
def pidTable : List Byte := pidTableLow ++ pidTableHigh

end Sys2Proof.Machine
end

