-- ==== Sys2Proof/Machine/Pid.lean ====
section
/-! DEFINITION. The meaning of `PIDGEN` (40_pid.md). -/

namespace Sys2Proof.Machine

/-- `PIDGEN id`: the PID of `arg[5:0]` for `arg <= 63`, otherwise `E_RANGE`; never masked silently
(40_pid.md R67, R68). It writes no state but `ERR` on the fault, in either phase. -/
def execPidgen (arg : Byte) (s : State) : Host.Outcome State Fault Refusal :=
  .next (unlessFaulted
    (if identInRange arg then respond .ok (pidFromId (identOf arg)) else raiseFault .eRange) s)

end Sys2Proof.Machine
end

