-- ==== Sys2Proof/Machine/Dispatch.lean ====
section
/-! DEFINITION. One arm per command of 30_encoding.md R42. -/

namespace Sys2Proof.Machine

def exec (i : Instr) (s : State) : Host.Outcome State Fault Refusal :=
  match i with
  | .nop arg => Sys2Proof.Machine.execNop arg s
  | .pidgen arg => Sys2Proof.Machine.execPidgen arg s
  | .ckinitC arg => Sys2Proof.Machine.execCkinitC arg s
  | .ckinitE pid => Sys2Proof.Machine.execCkinitE pid s
  | .ckadd b => Sys2Proof.Machine.execCkadd b s
  | .ckfin arg => Sys2Proof.Machine.execCkfin arg s

end Sys2Proof.Machine
end

