-- ==== Sys2Proof/Machine/Fetch.lean ====
section
/-! DEFINITION. Taking the host's next move, and running a command word: the dispatch of 30_encoding.md R50. -/

namespace Sys2Proof.Machine

/-- The host's next move, if it has one, and the state with that move taken (10_state.md R20, log entry 1). -/
def takeMove (s : State) : Option (HostMove × State) :=
  match s.input with
  | [] => none
  | m :: rest => some (m, { s with input := rest })

/-- The state with the command word `w` as the host's next move. -/
def placeWord (w : CmdWord) (s : State) : State := { s with input := .command w :: s.input }

/-- The dispatch of 30_encoding.md R50: a command word runs the command it decodes to, or raises `E_ILLEGAL`. Each
meaning, and `illegalCommand`, makes R50's first check, the faulted one, itself (DEDUCED, log entry 14, safe). -/
def runCommand (w : CmdWord) (s : State) : Host.Outcome State Fault Refusal :=
  match decode w with
  | .ok i => exec i s
  | .error (.reservedOpcode _) => .next (illegalCommand s)

/-- One move of the host: a command word, or a reset event (70_reset_and_hazards.md R153). -/
def runMove (m : HostMove) (s : State) : Host.Outcome State Fault Refusal :=
  match m with
  | .command w => runCommand w s
  | .reset => .next (resetBlock s)

end Sys2Proof.Machine
end

