-- ==== Sys2Proof/Machine/Step.lean ====
section
/-! DEFINITION. One step: the host's next move is taken and carried out (10_state.md R20, 30_encoding.md R50). -/

namespace Sys2Proof.Machine

/-- The host's next move is taken and carried out; with no move pending the block waits (DESIGN CHOICE, log entry 3,
safe). -/
def step (s : State) : Host.Outcome State Fault Refusal :=
  match takeMove s with
  | none => .next s
  | some (m, s) => runMove m s

/-- `s` with the word `w` of spec/opcode_table.json as the host's next command, before the moves already pending. The
bits above bit 11 do not exist on the `cmd` port (DESIGN CHOICE, log entry 1). -/
def State.withFetchWord (s : State) (nbits w : Nat) : State :=
  placeWord (BitVec.ofNat 12 (w % 2 ^ nbits)) s

end Sys2Proof.Machine
end

