-- ==== Sys2Proof/Machine/Assembler.lean ====
section
/-! DEFINITION. The assembler of 30_encoding.md R48 and the expansion of the pseudo-instructions of R49, from lines as
data (`AsmLine`) to the host's moves, and the written form of a response. -/

namespace Sys2Proof.Machine

/-- The command a mnemonic and its 8-bit operand stand for (30_encoding.md R48). -/
def instrOf (m : Mnemonic) (operand : Byte) : Instr :=
  match m with
  | .nop => .nop operand
  | .pidgen => .pidgen operand
  | .ckinitC => .ckinitC operand
  | .ckinitE => .ckinitE operand
  | .ckadd => .ckadd operand
  | .ckfin => .ckfin operand

/-- The `CKINIT` of a variant. The classic one carries the PID in its ignored argument (30_encoding.md R46). -/
def ckinitOf (pid : Byte) (enhanced : Bool) : Instr :=
  if enhanced then .ckinitE pid else .ckinitC pid

/-- A `CKINIT`, a `CKADD` for each byte, a `CKFIN`: the expansion of 30_encoding.md R49. -/
def cksumInstrs (pid : Byte) (payload : List Byte) (enhanced : Bool) : List Instr :=
  ckinitOf pid enhanced :: (payload.map Instr.ckadd ++ [Instr.ckfin 0x00#8])

/-- The moves of a host that sends these commands, in order. -/
def sendAll (is : List Instr) : List HostMove := is.map (fun i => .command (encode i))

/-- The numbers of a written payload as bytes. -/
def bytesOf (payload : List Nat) : List Byte := payload.map (BitVec.ofNat 8)

/-- What one line assembles to; a line that is not well formed is refused (30_encoding.md R48, R49). -/
def assemble (l : AsmLine) : Option (List HostMove) :=
  if lineWellFormed l then
    match l with
    | .command m operand => some (sendAll [instrOf m (BitVec.ofNat 8 (operand.getD 0))])
    | .word w => some [.command (BitVec.ofNat 12 w)]
    | .cksumC payload => some (sendAll (cksumInstrs 0x00#8 (bytesOf payload) false))
    | .cksumE pid payload => some (sendAll (cksumInstrs (BitVec.ofNat 8 pid) (bytesOf payload) true))
    | .reset => some [.reset]
  else none

/-- The name a status is written with (30_encoding.md R44, R48). -/
def statusName (st : Status) : List Char :=
  match st with
  | .ok => ['O', 'K']
  | .raised .eRange => ['E', '_', 'R', 'A', 'N', 'G', 'E']
  | .raised .eLen => ['E', '_', 'L', 'E', 'N']
  | .raised .eSeq => ['E', '_', 'S', 'E', 'Q']
  | .raised .eIllegal => ['E', '_', 'I', 'L', 'L', 'E', 'G', 'A', 'L']
  | .eFaulted => ['E', '_', 'F', 'A', 'U', 'L', 'T', 'E', 'D']

/-- One hexadecimal digit, capital as the spec writes it. -/
def hexDigit (n : Nat) : Char :=
  if n < 10 then Char.ofNat (48 + n) else Char.ofNat (55 + n)

/-- A response as it is written, `status:value`, for example `OK:0x06` (30_encoding.md R48). -/
def respText (r : Resp) : List Char :=
  statusName r.status ++
    [':', '0', 'x', hexDigit (r.value.toNat / 16), hexDigit (r.value.toNat % 16)]

end Sys2Proof.Machine
end

