-- ==== Sys2Proof/Safety.lean ====
section
/-! DEFINITION. The terms claims use: a run, a good state, the bounds of 10_state.md R21, what a host can observe, the
bytes a checksum in progress includes, and the order of the fault checks. -/

namespace Sys2Proof.Machine

/-- `n` steps, stopping where a step does not answer a next state. A run is the reset state with a finite sequence of
moves, and as many steps as it has moves (70_reset_and_hazards.md R152). -/
def runSteps : Nat → State → Host.Outcome State Fault Refusal
  | 0, s => .next s
  | n + 1, s =>
    match step s with
    | .next t => runSteps n t
    | .fault r => .fault r
    | .refused r => .refused r

/-- "The end state is good only if `ERR = 0`" (70_reset_and_hazards.md R152). -/
abbrev Good (s : State) : Prop := s.err = 0#3

/-- The bounds of 10_state.md R21 (b) and (c): `CNT` is in 0..8 and `ERR` in 0..4. (a) is the width of `ACC`. -/
abbrev Inv (s : State) : Prop := s.cnt.toNat ≤ 8 ∧ s.err.toNat ≤ 4

/-- The two states agree on all the block's state: `ACC`, `CNT`, `PHASE` and `ERR`. -/
abbrev SameBlock (s t : State) : Prop :=
  t.acc = s.acc ∧ t.cnt = s.cnt ∧ t.phase = s.phase ∧ t.err = s.err

/-- The two states agree on all that a command sequence can observe: `ERR`; `PHASE` while not faulted; `ACC` and `CNT`
only while a checksum is in progress on an unfaulted block (10_state.md R24). -/
def SameView (s t : State) : Prop :=
  s.input = t.input ∧ s.err = t.err ∧
    (s.err = 0#3 → s.phase = t.phase ∧ (s.phase = .accum → s.acc = t.acc ∧ s.cnt = t.cnt))

/-- What the checksum in progress includes: the value it began at, 0 or the PID, and the payload bytes so far. -/
structure Included where
  /-- `acc_0` of 41_checksum.md R80. -/
  start : Byte
  /-- The payload bytes added since the last `CKINIT`, in order. -/
  payload : List Byte
deriving DecidableEq, Repr

/-- What is included after the host's next move, kept outside the machine as a history (10_state.md R21 (e)). -/
def includedNext (s : State) (g : Option Included) : Option Included :=
  match s.input with
  | [] => g
  | .reset :: _ => none
  | .command w :: _ =>
    match decode w with
    | .ok (.ckinitC _) => some ⟨0x00#8, []⟩
    | .ok (.ckinitE pid) => some ⟨pid, []⟩
    | .ok (.ckadd b) => g.map (fun x => ⟨x.start, x.payload ++ [b]⟩)
    | .ok (.nop _) => g
    | .ok (.pidgen _) => g
    | .ok (.ckfin _) => g
    | .error _ => g

/-- While a checksum is in progress on an unfaulted block, `ACC` is the folded sum of the bytes included so far and `CNT`
the number of payload bytes among them, at most 8 (10_state.md R21 (e)). -/
def TracksSum (s : State) (g : Option Included) : Prop :=
  s.phase = .accum → s.err = 0#3 →
    ∃ x, g = some x ∧ s.acc = accAfter x.start x.payload ∧ s.cnt.toNat = x.payload.length ∧
      x.payload.length ≤ 8

/-- A command that may be inserted anywhere in a checksum: `NOP`, or `PIDGEN` with an identifier in range
(41_checksum.md R98). -/
def neutral (i : Instr) : Bool :=
  match i with
  | .nop _ => true
  | .pidgen arg => decide (arg.toNat ≤ 63)
  | .ckinitC _ => false
  | .ckinitE _ => false
  | .ckadd _ => false
  | .ckfin _ => false

/-- The responses of the commands that are not neutral, of commands paired with their responses. -/
def answersOf (is : List Instr) (rs : List Resp) : List Resp :=
  ((is.zip rs).filter (fun p => !neutral p.1)).map Prod.snd

/-- The number of commands among the moves; a reset event has no response (70_reset_and_hazards.md R140). -/
def commandCount (moves : List HostMove) : Nat :=
  (moves.filter (fun m => m ≠ .reset)).length

/-- The status the fixed order of checks gives the word `w`, read from the bits of `w` alone
(60_exceptions.md R127). -/
def statusByOrder (s : State) (w : CmdWord) : Status :=
  if s.err ≠ 0#3 then .eFaulted
  else if 6 ≤ w.toNat / 256 then .raised .eIllegal
  else if w.toNat / 256 = 1 ∧ 63 < w.toNat % 256 then .raised .eRange
  else if (w.toNat / 256 = 4 ∨ w.toNat / 256 = 5) ∧ s.phase = .idle then .raised .eSeq
  else if w.toNat / 256 = 4 ∧ s.cnt = 8#4 then .raised .eLen
  else if w.toNat / 256 = 5 ∧ s.cnt = 0#4 then .raised .eLen
  else .ok

end Sys2Proof.Machine
end

