-- ==== Sys2Proof/Certificates/Slice0/Obligations.lean ====
section
/-! DEFINITION. The statements for the provers. Each docstring names the rule of spec/ the statement formalises; where the
spec marks the rule as its own derivation, or the model chose the point, the docstring says so. -/

open Sys2Proof Sys2Proof.Machine

/-! ## The protected identifier (40_pid.md) -/

/-- 40_pid.md R60: the PID is `{p1, p0, id}`, equally `id | (p0 << 6) | (p1 << 7)`. -/
def Obligations.PidCombinesIdentifierAndParity : Prop :=
  ∀ id : Ident,
    (pidFromId id).extractLsb' 0 6 = id ∧
    (pidFromId id).getLsbD 6 = parity0 id ∧
    (pidFromId id).getLsbD 7 = parity1 id ∧
    pidFromId id =
      id.setWidth 8 ||| (BitVec.ofBool (parity0 id)).setWidth 8 <<< 6 |||
        (BitVec.ofBool (parity1 id)).setWidth 8 <<< 7

/-- 40_pid.md R61: `p0` is the exclusive-or of ID bits 0, 1, 2, 4; with it the five bits hold an even number of ones; it
is 1 exactly for an odd number among the four; bits 3 and 5 do not enter; `id = 6` has `pid = 0x06`. -/
def Obligations.FirstParityBitIsEvenParity : Prop :=
  (∀ id : Ident,
    parity0 id = (id.getLsbD 0 ^^ id.getLsbD 1 ^^ id.getLsbD 2 ^^ id.getLsbD 4) ∧
    ((id.getLsbD 0).toNat + (id.getLsbD 1).toNat + (id.getLsbD 2).toNat + (id.getLsbD 4).toNat +
      (parity0 id).toNat) % 2 = 0 ∧
    (parity0 id = true ↔
      ((id.getLsbD 0).toNat + (id.getLsbD 1).toNat + (id.getLsbD 2).toNat +
        (id.getLsbD 4).toNat) % 2 = 1) ∧
    parity0 (id ^^^ 0b001000#6) = parity0 id ∧
    parity0 (id ^^^ 0b100000#6) = parity0 id) ∧
  parity0 6#6 = false ∧ pidFromId 6#6 = 0x06#8

/-- 40_pid.md R62: `p1` is the complement of the exclusive-or of ID bits 1, 3, 4, 5; with it the five bits hold an odd
number of ones; it is 1 exactly for an even number among the four; bits 0 and 2 do not enter; `id = 6` has
`p1 = 0`. -/
def Obligations.SecondParityBitIsInvertedParity : Prop :=
  (∀ id : Ident,
    parity1 id = !(id.getLsbD 1 ^^ id.getLsbD 3 ^^ id.getLsbD 4 ^^ id.getLsbD 5) ∧
    ((id.getLsbD 1).toNat + (id.getLsbD 3).toNat + (id.getLsbD 4).toNat + (id.getLsbD 5).toNat +
      (parity1 id).toNat) % 2 = 1 ∧
    (parity1 id = true ↔
      ((id.getLsbD 1).toNat + (id.getLsbD 3).toNat + (id.getLsbD 4).toNat +
        (id.getLsbD 5).toNat) % 2 = 0) ∧
    parity1 (id ^^^ 0b000001#6) = parity1 id ∧
    parity1 (id ^^^ 0b000100#6) = parity1 id) ∧
  parity1 6#6 = false ∧ pidFromId 6#6 = 0x06#8

/-- 40_pid.md R63: the even-parity bit over ID bits 0, 1, 2, 4 is PID bit 6 and the inverted-parity bit over ID bits
1, 3, 4, 5 is PID bit 7; entries 1, 3 and 2 are `0xC1`, `0x03` and `0x42`. -/
def Obligations.ParityBitPlacement : Prop :=
  (∀ id : Ident,
    (pidFromId id).getLsbD 6 =
      (id.getLsbD 0 ^^ id.getLsbD 1 ^^ id.getLsbD 2 ^^ id.getLsbD 4) ∧
    (pidFromId id).getLsbD 7 =
      !(id.getLsbD 1 ^^ id.getLsbD 3 ^^ id.getLsbD 4 ^^ id.getLsbD 5)) ∧
  pidFromId 1#6 = 0xC1#8 ∧ pidFromId 3#6 = 0x03#8 ∧ pidFromId 2#6 = 0x42#8

/-- 40_pid.md R64: `pid_from_id(id) & 0x3F = id` for every identifier. -/
def Obligations.PidKeepsIdentifierInLowBits : Prop :=
  ∀ id : Ident, pidFromId id &&& 0x3F#8 = id.setWidth 8

/-- 40_pid.md R66: the printed table and the formula are the same function, entry by entry, and so is the two-bit form
that holds `{p1, p0}` only. -/
def Obligations.PidTableIsTheFormula : Prop :=
  pidTable.length = 64 ∧
  ∀ id : Ident,
    pidTable[id.toNat]? = some (pidFromId id) ∧
    (pidTable[id.toNat]?).map (fun pid => pid.extractLsb' 6 2) =
      some (BitVec.ofBool (parity1 id) ++ BitVec.ofBool (parity0 id))

/-- 40_pid.md section 2, properties the spec derives from the table: distinct values, distinct modulo 255 too, never
`0x00` or `0xFF`, smallest `0x03` and largest `0xFE`, and a byte is a valid PID exactly when it is the PID of its low
six bits. -/
def Obligations.PidValuesAreDistinctAndRecognisable : Prop :=
  (∀ id id' : Ident,
    (pidFromId id).toNat % 255 = (pidFromId id').toNat % 255 → id = id') ∧
  (∀ id : Ident, 0x03 ≤ (pidFromId id).toNat ∧ (pidFromId id).toNat ≤ 0xFE) ∧
  (∃ id : Ident, pidFromId id = 0x03#8) ∧ (∃ id : Ident, pidFromId id = 0xFE#8) ∧
  (∀ v : Byte, (∃ id, pidFromId id = v) ↔ pidFromId (identOf v) = v)

/-! ## The checksum function (41_checksum.md sections 1 and 2) -/

/-- 41_checksum.md R81: the sum as a natural number of at most 510, minus 255 when it exceeds 255; the test is the same
as `t >= 256` and as bit 8 of the sum; the three worked corners. -/
def Obligations.EndAroundCarryAddition : Prop :=
  (∀ a b : Byte,
    (eacAdd a b).toNat =
      (if a.toNat + b.toNat > 255 then a.toNat + b.toNat - 255 else a.toNat + b.toNat) ∧
    a.toNat + b.toNat ≤ 510 ∧
    (a.toNat + b.toNat > 255 ↔ a.toNat + b.toNat ≥ 256) ∧
    (a.toNat + b.toNat > 255 ↔ (a.toNat + b.toNat).testBit 8 = true)) ∧
  eacAdd 255#8 1#8 = 1#8 ∧ eacAdd 255#8 0#8 = 255#8 ∧ eacAdd 255#8 255#8 = 255#8

/-- 41_checksum.md sections 1 and 2, derived there: one subtraction is enough, it leaves 1..255, and the result is the
low 8 bits of the sum plus its carry. -/
def Obligations.OneFoldPerByteIsEnough : Prop :=
  ∀ a b : Byte,
    (a.toNat + b.toNat > 255 → 1 ≤ (eacAdd a b).toNat ∧ (eacAdd a b).toNat ≤ 255) ∧
    (eacAdd a b).toNat = (a.toNat + b.toNat) % 256 + (a.toNat + b.toNat) / 256

/-- 41_checksum.md R80: for a payload of 1 to 8 bytes, `acc_0` is the PID or 0, `acc_k` adds byte `k` with end-around
carry, and the checksum is `255 - acc_n`. -/
def Obligations.ChecksumFollowsTheAlgorithm : Prop :=
  ∀ (pid : Byte) (payload : List Byte) (enhanced : Bool),
    1 ≤ payload.length → payload.length ≤ 8 →
    ∃ acc : Nat → Byte,
      acc 0 = (if enhanced then pid else 0#8) ∧
      (∀ (k : Nat) (h : k < payload.length), acc (k + 1) = eacAdd (acc k) payload[k]) ∧
      checksum pid payload enhanced = some (255#8 - acc payload.length)

/-- 41_checksum.md section 1: outside 1 to 8 bytes the function has no value, and complementing the result gives the
accumulator back. -/
def Obligations.ChecksumDomainAndRoundTrip : Prop :=
  ∀ (pid : Byte) (payload : List Byte) (enhanced : Bool),
    (checksum pid payload enhanced = none ↔ payload.length = 0 ∨ 8 < payload.length) ∧
    (∀ v, checksum pid payload enhanced = some v →
      ~~~v = accAfter (accStart pid enhanced) payload)

/-- 41_checksum.md R86: the classic checksum does not depend on the PID. -/
def Obligations.ClassicChecksumIgnoresPid : Prop :=
  ∀ (p q : Byte) (payload : List Byte), checksum p payload false = checksum q payload false

/-- 41_checksum.md section 2, the closed form, derived there. -/
def Obligations.ChecksumClosedForm : Prop :=
  ∀ (pid : Byte) (payload : List Byte) (enhanced : Bool),
    (accAfter (accStart pid enhanced) payload).toNat =
      (if includedSum pid payload enhanced = 0 then 0
        else (includedSum pid payload enhanced - 1) % 255 + 1) ∧
    (∀ v, checksum pid payload enhanced = some v →
      v.toNat = 255 - (accAfter (accStart pid enhanced) payload).toNat)

/-- 41_checksum.md section 2, order independence, derived there: `eac_add` is commutative and associative, the order of
the payload does not matter, and the PID may be added last. -/
def Obligations.ChecksumIsOrderIndependent : Prop :=
  (∀ a b : Byte, eacAdd a b = eacAdd b a) ∧
  (∀ a b c : Byte, eacAdd (eacAdd a b) c = eacAdd a (eacAdd b c)) ∧
  (∀ (pid : Byte) (p q : List Byte) (enhanced : Bool),
    p.Perm q → checksum pid p enhanced = checksum pid q enhanced) ∧
  (∀ (pid : Byte) (payload : List Byte),
    accAfter pid payload = eacAdd (accAfter 0#8 payload) pid)

/-- 41_checksum.md section 2, the alternative the source allows: 16-bit carry folding gives the same checksum for every
input, the folding is the loop "while T > 255", and two passes always suffice. -/
def Obligations.CarryFoldingGivesTheSameChecksum : Prop :=
  (∀ t : Nat, carryFold t = if t > 255 then carryFold (foldPass t) else t) ∧
  (∀ (pid : Byte) (payload : List Byte) (enhanced : Bool),
    1 ≤ payload.length → payload.length ≤ 8 →
    carryFold (includedSum pid payload enhanced) ≤ 255 ∧
    foldPass (foldPass (includedSum pid payload enhanced)) ≤ 255 ∧
    checksum pid payload enhanced =
      some (BitVec.ofNat 8 (255 - carryFold (includedSum pid payload enhanced))))

/-- 41_checksum.md section 2, extreme results, derived there. -/
def Obligations.ExtremeChecksums : Prop :=
  (∀ (pid : Byte) (payload : List Byte) (enhanced : Bool),
    1 ≤ payload.length → payload.length ≤ 8 →
    (checksum pid payload enhanced = some 0xFF#8 ↔
      accStart pid enhanced = 0#8 ∧ ∀ b ∈ payload, b = 0#8) ∧
    (checksum pid payload enhanced = some 0x00#8 ↔
      0 < includedSum pid payload enhanced ∧ includedSum pid payload enhanced % 255 = 0)) ∧
  (∀ v : Byte, ∃ b : Byte, checksum 0#8 [b] false = some v) ∧
  (∀ (id : Ident) (payload : List Byte), checksum (pidFromId id) payload true ≠ some 0xFF#8)

/-- 41_checksum.md section 2, sensitivity to the PID, derived there: two PIDs collide exactly when they are `0x00` and
`0xFF` and the payload has a non-zero byte, so two valid PIDs never do. -/
def Obligations.PidCollisions : Prop :=
  (∀ (p q : Byte) (payload : List Byte),
    1 ≤ payload.length → payload.length ≤ 8 → p ≠ q →
    (checksum p payload true = checksum q payload true ↔
      ((p = 0x00#8 ∧ q = 0xFF#8) ∨ (p = 0xFF#8 ∧ q = 0x00#8)) ∧ ∃ b ∈ payload, b ≠ 0#8)) ∧
  (∀ (id id' : Ident) (payload : List Byte),
    1 ≤ payload.length → payload.length ≤ 8 → id ≠ id' →
    checksum (pidFromId id) payload true ≠ checksum (pidFromId id') payload true)

/-- 41_checksum.md section 2, classic and enhanced, derived there: they agree exactly for `0x00`, or for `0xFF` with a
non-zero payload byte, so never for a valid PID. -/
def Obligations.ClassicAndEnhancedDiffer : Prop :=
  (∀ (pid : Byte) (payload : List Byte),
    1 ≤ payload.length → payload.length ≤ 8 →
    (checksum pid payload true = checksum pid payload false ↔
      pid = 0x00#8 ∨ (pid = 0xFF#8 ∧ ∃ b ∈ payload, b ≠ 0#8))) ∧
  (∀ (id : Ident) (payload : List Byte),
    1 ≤ payload.length → payload.length ≤ 8 →
    checksum (pidFromId id) payload true ≠ checksum (pidFromId id) payload false)

/-- 41_checksum.md section 2, the receiver's sum, derived there: the included bytes and then the checksum fold to
`0xFF`. -/
def Obligations.ReceiverSumIsFF : Prop :=
  ∀ (pid : Byte) (payload : List Byte) (enhanced : Bool) (v : Byte),
    checksum pid payload enhanced = some v →
    eacAdd (accAfter (accStart pid enhanced) payload) v = 0xFF#8

/-! ## Words (30_encoding.md) -/

/-- 30_encoding.md sections 1 and 2: a word decodes to a command exactly when it is that command's word, for all 4096
words and every argument of every command. -/
def Obligations.DecodeAndEncodeAgree : Prop :=
  ∀ (w : CmdWord) (i : Instr), decode w = .ok i ↔ encode i = w

/-- 30_encoding.md section 2: each row's match and mask select its command with the low byte as the argument, and every
other word is rejected with its reserved opcode. -/
def Obligations.OpcodeMapSelectsTheCommand : Prop :=
  ∀ w : CmdWord,
    (w &&& 0xF00#12 = 0x000#12 → decode w = .ok (.nop (w.setWidth 8))) ∧
    (w &&& 0xF00#12 = 0x100#12 → decode w = .ok (.pidgen (w.setWidth 8))) ∧
    (w &&& 0xF00#12 = 0x200#12 → decode w = .ok (.ckinitC (w.setWidth 8))) ∧
    (w &&& 0xF00#12 = 0x300#12 → decode w = .ok (.ckinitE (w.setWidth 8))) ∧
    (w &&& 0xF00#12 = 0x400#12 → decode w = .ok (.ckadd (w.setWidth 8))) ∧
    (w &&& 0xF00#12 = 0x500#12 → decode w = .ok (.ckfin (w.setWidth 8))) ∧
    (0x600 ≤ w.toNat →
      decode w = .error (.reservedOpcode (BitVec.ofNat 4 (w.toNat / 256)))) ∧
    (wordWellFormed w = true ↔ w.toNat < 0x600)

/-- 30_encoding.md section 8 (R51, worked encodings; the all-zero word is from section 5): command words and response words
written out in the spec. -/
def Obligations.WorkedEncodings : Prop :=
  decode 0b000100000110#12 = .ok (.pidgen 0x06#8) ∧
  decode 0b001100000110#12 = .ok (.ckinitE 0x06#8) ∧
  decode 0b010000110011#12 = .ok (.ckadd 0x33#8) ∧
  decode 0b010100000000#12 = .ok (.ckfin 0x00#8) ∧
  decode 0b001000000000#12 = .ok (.ckinitC 0x00#8) ∧
  decode 0b000101000000#12 = .ok (.pidgen 0x40#8) ∧
  decode 0b000000000000#12 = .ok (.nop 0x00#8) ∧
  decode 0b011000000000#12 = .error (.reservedOpcode 0x6#4) ∧
  decode 0b111111111111#12 = .error (.reservedOpcode 0xF#4) ∧
  respWord ⟨.ok, 0x06#8⟩ = 0b00000000110#11 ∧
  respWord ⟨.raised .eRange, 0x00#8⟩ = 0x100#11 ∧
  respWord ⟨.eFaulted, 0x02#8⟩ = 0x702#11

/-- 30_encoding.md sections 1 and 4: the response word holds the status code in bits 10:8 and the value in bits 7:0; the
status codes. -/
def Obligations.ResponseWordLayout : Prop :=
  (∀ r : Resp,
    (respWord r).extractLsb' 8 3 = statusCode r.status ∧
    (respWord r).extractLsb' 0 8 = r.value) ∧
  statusCode .ok = 0#3 ∧ statusCode (.raised .eRange) = 1#3 ∧
  statusCode (.raised .eLen) = 2#3 ∧ statusCode (.raised .eSeq) = 3#3 ∧
  statusCode (.raised .eIllegal) = 4#3 ∧ statusCode .eFaulted = 7#3

/-- 30_encoding.md R46: the argument of `NOP`, `CKINIT.C` and `CKFIN` makes no difference, in any state; of the other
commands only `arg[7:6]` of `PIDGEN` is checked, so `ERR` after them depends on no other argument bit; and the all-zero
word is `NOP`. -/
def Obligations.IgnoredArgumentsMakeNoDifference : Prop :=
  (∀ (s : State) (a b : Byte),
    exec (.nop a) s = exec (.nop b) s ∧
    exec (.ckinitC a) s = exec (.ckinitC b) s ∧
    exec (.ckfin a) s = exec (.ckfin b) s) ∧
  (∀ (s : State) (a b : Byte), ∃ t u,
    exec (.ckinitE a) s = .next t ∧ exec (.ckinitE b) s = .next u ∧ t.err = u.err) ∧
  (∀ (s : State) (a b : Byte), ∃ t u,
    exec (.ckadd a) s = .next t ∧ exec (.ckadd b) s = .next u ∧ t.err = u.err) ∧
  (∀ (s : State) (a b : Byte), a.extractLsb' 6 2 = b.extractLsb' 6 2 → ∃ t u,
    exec (.pidgen a) s = .next t ∧ exec (.pidgen b) s = .next u ∧ t.err = u.err) ∧
  decode 0x000#12 = .ok (.nop 0x00#8)

/-- 30_encoding.md R48: the word each written command stands for, an omitted operand being 0x00; `.word`; `RESET`, which has
no word; and how a response is written. -/
def Obligations.AssemblerWords : Prop :=
  (∀ n : Nat, n < 256 →
    assemble (.command .nop (some n)) = some [.command (BitVec.ofNat 12 (0x000 + n))] ∧
    assemble (.command .pidgen (some n)) = some [.command (BitVec.ofNat 12 (0x100 + n))] ∧
    assemble (.command .ckinitC (some n)) = some [.command (BitVec.ofNat 12 (0x200 + n))] ∧
    assemble (.command .ckinitE (some n)) = some [.command (BitVec.ofNat 12 (0x300 + n))] ∧
    assemble (.command .ckadd (some n)) = some [.command (BitVec.ofNat 12 (0x400 + n))] ∧
    assemble (.command .ckfin (some n)) = some [.command (BitVec.ofNat 12 (0x500 + n))]) ∧
  (∀ m : Mnemonic, assemble (.command m none) = assemble (.command m (some 0))) ∧
  (∀ w : Nat, w < 4096 → assemble (.word w) = some [.command (BitVec.ofNat 12 w)]) ∧
  assemble .reset = some [.reset] ∧
  (∀ (st : Status) (v : Byte), ∃ hi lo,
    "0123456789ABCDEF".toList[v.toNat / 16]? = some hi ∧
    "0123456789ABCDEF".toList[v.toNat % 16]? = some lo ∧
    respText ⟨st, v⟩ = statusName st ++ ":0x".toList ++ [hi, lo]) ∧
  respText ⟨.ok, 0x06#8⟩ = "OK:0x06".toList ∧
  respText ⟨.raised .eLen, 0x00#8⟩ = "E_LEN:0x00".toList

/-- 30_encoding.md R49: the two pseudo-instructions expand to `n + 2` command words, `CKINIT`, the `CKADD`s in order, `CKFIN`;
run from any unfaulted state their last response is the checksum; `n = 0` and `n > 8` are refused. -/
def Obligations.PseudoInstructionsExpandToTheChecksum : Prop :=
  (∀ (pid : Nat) (payload : List Nat) (s : State),
    1 ≤ payload.length → payload.length ≤ 8 → (∀ b ∈ payload, b < 256) → pid < 256 →
    s.err = 0#3 →
    (∃ moves t v,
      assemble (.cksumC payload) = some moves ∧
      moves = .command 0x200#12 ::
        (payload.map (fun b => .command (BitVec.ofNat 12 (0x400 + b))) ++
          [.command 0x500#12]) ∧
      moves.length = payload.length + 2 ∧
      runSteps moves.length { s with input := moves } = .next t ∧
      t.responses.getLast? = some ⟨.ok, v⟩ ∧
      ∀ any, checksum any (bytesOf payload) false = some v) ∧
    (∃ moves t v,
      assemble (.cksumE pid payload) = some moves ∧
      moves = .command (BitVec.ofNat 12 (0x300 + pid)) ::
        (payload.map (fun b => .command (BitVec.ofNat 12 (0x400 + b))) ++
          [.command 0x500#12]) ∧
      moves.length = payload.length + 2 ∧
      runSteps moves.length { s with input := moves } = .next t ∧
      t.responses.getLast? = some ⟨.ok, v⟩ ∧
      checksum (BitVec.ofNat 8 pid) (bytesOf payload) true = some v)) ∧
  (∀ (pid : Nat) (payload : List Nat), payload.length = 0 ∨ 8 < payload.length →
    assemble (.cksumC payload) = none ∧ assemble (.cksumE pid payload) = none)

/-! ## The step (10_state.md, 30_encoding.md section 7) -/

/-- 30_encoding.md section 7: when the host's next move is a word that decodes to a command, the step is that command's
meaning on the state with the move taken. -/
def Obligations.StepRunsTheDecodedCommand : Prop :=
  ∀ (s : State) (w : CmdWord) (rest : List HostMove) (i : Instr),
    s.input = .command w :: rest → decode w = .ok i →
    step s = exec i { s with input := rest }

/-- The model's own placing of a word as the next command (log entry 1): a table word placed at a state is run at that
state by the next step. -/
def Obligations.PlacedWordRunsNext : Prop :=
  ∀ (s : State) (nbits w : Nat) (i : Instr),
    decodeTableWord nbits w = some i → step (s.withFetchWord nbits w) = exec i s

/-- 10_state.md R20: the step is a total function of the block's state and the word: every word in every state has one next
state and one response, which do not depend on the moves to come or on the responses already given. -/
def Obligations.EveryWordHasOneNextStateAndOneResponse : Prop :=
  ∀ (acc : Byte) (cnt : Count) (phase : Phase) (err : Code) (w : CmdWord),
    ∃ (acc' : Byte) (cnt' : Count) (phase' : Phase) (err' : Code) (r : Resp),
      ∀ (rest : List HostMove) (rs : List Resp),
        step ⟨acc, cnt, phase, err, .command w :: rest, rs⟩ =
          .next ⟨acc', cnt', phase', err', rest, rs ++ [r]⟩

/-- The model's choice (log entry 3): with no move pending the block waits and nothing changes. -/
def Obligations.WaitingChangesNothing : Prop :=
  ∀ s : State, s.input = [] → step s = .next s

/-! ## The commands -/

/-- 42_misc.md R110: `NOP` on an unfaulted block answers `OK:0x00` and writes no state; on a faulted one it answers
`E_FAULTED` with `ERR`; its word is `0x000 + arg`. -/
def Obligations.NopAnswersAndWritesNothing : Prop :=
  ∀ (arg : Byte) (s : State),
    encode (.nop arg) = 0x000#12 + arg.setWidth 12 ∧
    (s.err = 0#3 →
      exec (.nop arg) s = .next { s with responses := s.responses ++ [⟨.ok, 0x00#8⟩] }) ∧
    (s.err ≠ 0#3 →
      exec (.nop arg) s =
        .next { s with responses := s.responses ++ [⟨.eFaulted, s.err.setWidth 8⟩] })

/-- 40_pid.md R67: `PIDGEN` on an unfaulted block, in either phase: `arg <= 63` answers the PID of `arg[5:0]` and writes
no state; `arg > 63` raises `E_RANGE`; its word is `0x100 + arg`. -/
def Obligations.PidgenAnswersThePid : Prop :=
  ∀ (arg : Byte) (s : State), s.err = 0#3 →
    encode (.pidgen arg) = 0x100#12 + arg.setWidth 12 ∧
    (arg.toNat ≤ 63 →
      exec (.pidgen arg) s =
        .next { s with responses := s.responses ++ [⟨.ok, pidFromId (arg.extractLsb' 0 6)⟩] }) ∧
    (63 < arg.toNat →
      exec (.pidgen arg) s =
        .next { s with
          err := 1#3, responses := s.responses ++ [⟨.raised .eRange, 0x00#8⟩] })

/-- 41_checksum.md R94: `CKINIT.C` on an unfaulted block, in either phase: `ACC` and `CNT` become 0, `PHASE` becomes
`ACCUM`, the answer is `OK:0x00`, and nothing else changes; its word is `0x200 + arg`. -/
def Obligations.CkinitCStartsAtZero : Prop :=
  ∀ (arg : Byte) (s : State), s.err = 0#3 →
    encode (.ckinitC arg) = 0x200#12 + arg.setWidth 12 ∧
    exec (.ckinitC arg) s =
      .next { s with
        acc := 0x00#8, cnt := 0#4, phase := .accum,
        responses := s.responses ++ [⟨.ok, 0x00#8⟩] }

/-- 41_checksum.md R95: `CKINIT.E pid` on an unfaulted block, in either phase, for any byte: `ACC` becomes the byte, `CNT` 0,
`PHASE` `ACCUM`, the answer is `OK:0x00`, and nothing else changes; with 0x00 it leaves what `CKINIT.C` leaves; its
word is `0x300 + pid`. -/
def Obligations.CkinitEStartsAtThePid : Prop :=
  ∀ (pid : Byte) (s : State), s.err = 0#3 →
    encode (.ckinitE pid) = 0x300#12 + pid.setWidth 12 ∧
    exec (.ckinitE pid) s =
      .next { s with
        acc := pid, cnt := 0#4, phase := .accum,
        responses := s.responses ++ [⟨.ok, 0x00#8⟩] } ∧
    ∀ any, exec (.ckinitE 0x00#8) s = exec (.ckinitC any) s

/-- 41_checksum.md R96: `CKADD b` on an unfaulted block: `E_SEQ` in `IDLE`; `E_LEN` in `ACCUM` at `CNT = 8`; else `ACC`
becomes `eac_add(ACC, b)`, `CNT` goes up by 1, the answer is `OK:0x00`, and nothing else changes. At the unreachable
`CNT = 15` the new count is a free value of the model's (log entry 4) and nothing is said of it. Its word is
`0x400 + b`. -/
def Obligations.CkaddFoldsAndCounts : Prop :=
  ∀ (b : Byte) (s : State), s.err = 0#3 →
    encode (.ckadd b) = 0x400#12 + b.setWidth 12 ∧
    (s.phase = .idle →
      exec (.ckadd b) s =
        .next { s with err := 3#3, responses := s.responses ++ [⟨.raised .eSeq, 0x00#8⟩] }) ∧
    (s.phase = .accum → s.cnt = 8#4 →
      exec (.ckadd b) s =
        .next { s with err := 2#3, responses := s.responses ++ [⟨.raised .eLen, 0x00#8⟩] }) ∧
    (s.phase = .accum → s.cnt ≠ 8#4 →
      ∃ c : Count,
        exec (.ckadd b) s =
          .next { s with
            acc := eacAdd s.acc b, cnt := c,
            responses := s.responses ++ [⟨.ok, 0x00#8⟩] } ∧
        (s.cnt.toNat < 15 → c.toNat = s.cnt.toNat + 1))

/-- 41_checksum.md R97: `CKFIN` on an unfaulted block: `E_SEQ` in `IDLE`; `E_LEN` in `ACCUM` at `CNT = 0`; else the answer is
`OK` with `255 - ACC`, `PHASE` becomes `IDLE`, and nothing else changes; its word is `0x500 + arg`. -/
def Obligations.CkfinAnswersTheComplement : Prop :=
  ∀ (arg : Byte) (s : State), s.err = 0#3 →
    encode (.ckfin arg) = 0x500#12 + arg.setWidth 12 ∧
    (s.phase = .idle →
      exec (.ckfin arg) s =
        .next { s with err := 3#3, responses := s.responses ++ [⟨.raised .eSeq, 0x00#8⟩] }) ∧
    (s.phase = .accum → s.cnt = 0#4 →
      exec (.ckfin arg) s =
        .next { s with err := 2#3, responses := s.responses ++ [⟨.raised .eLen, 0x00#8⟩] }) ∧
    (s.phase = .accum → s.cnt ≠ 0#4 →
      exec (.ckfin arg) s =
        .next { s with
          phase := .idle, responses := s.responses ++ [⟨.ok, 255#8 - s.acc⟩] })

/-- What each command leaves unchanged when it answers a next state, in any state: the moves to come and the earlier
responses always; all of the block for `NOP`; for each other command all but the elements its rule names
(20_memory.md section 4, 60_exceptions.md section 3); and `ERR` goes only from 0 to the command's own fault codes. -/
def Obligations.CommandFrame : Prop :=
  ∀ (i : Instr) (s t : State), exec i s = .next t →
    t.input = s.input ∧
    (∃ r, t.responses = s.responses ++ [r]) ∧
    (s.err ≠ 0#3 → SameBlock s t) ∧
    match i with
    | .nop _ => SameBlock s t
    | .pidgen _ =>
      t.acc = s.acc ∧ t.cnt = s.cnt ∧ t.phase = s.phase ∧ (t.err = s.err ∨ t.err = 1#3)
    | .ckinitC _ => t.err = s.err
    | .ckinitE _ => t.err = s.err
    | .ckadd _ => t.phase = s.phase ∧ (t.err = s.err ∨ t.err = 2#3 ∨ t.err = 3#3)
    | .ckfin _ =>
      t.acc = s.acc ∧ t.cnt = s.cnt ∧ (t.err = s.err ∨ t.err = 2#3 ∨ t.err = 3#3)

/-- 20_memory.md R39: what each command writes on an unfaulted block and what repeating it does: `NOP` and `PIDGEN` nothing
and the same response; the `CKINIT`s idempotent; `CKADD` adds and counts again; a second `CKFIN` faults `E_SEQ`. -/
def Obligations.RepeatingACommand : Prop :=
  ∀ s : State, s.err = 0#3 →
    (∀ i, neutral i = true → ∃ t u r,
      exec i s = .next t ∧ exec i t = .next u ∧ SameBlock s t ∧ SameBlock t u ∧
      t.responses = s.responses ++ [r] ∧ u.responses = t.responses ++ [r]) ∧
    (∀ pid enhanced, ∃ t u,
      exec (ckinitOf pid enhanced) s = .next t ∧ exec (ckinitOf pid enhanced) t = .next u ∧
      t.err = s.err ∧ SameBlock t u) ∧
    (∀ b, s.phase = .accum → s.cnt.toNat < 7 → ∃ t u,
      exec (.ckadd b) s = .next t ∧ exec (.ckadd b) t = .next u ∧
      t.phase = s.phase ∧ t.err = s.err ∧ u.phase = s.phase ∧ u.err = s.err ∧
      t.acc = eacAdd s.acc b ∧ u.acc = eacAdd (eacAdd s.acc b) b ∧
      t.cnt.toNat = s.cnt.toNat + 1 ∧ u.cnt.toNat = s.cnt.toNat + 2) ∧
    (∀ a, s.phase = .accum → s.cnt ≠ 0#4 → ∃ t u,
      exec (.ckfin a) s = .next t ∧ exec (.ckfin a) t = .next u ∧
      t.acc = s.acc ∧ t.cnt = s.cnt ∧ t.err = s.err ∧ t.phase = .idle ∧
      u.err = 3#3 ∧ u.responses = t.responses ++ [⟨.raised .eSeq, 0x00#8⟩])

/-- 40_pid.md section 5 and 70_reset_and_hazards.md section 3: a host that masks the identifier to six bits never sees
`E_RANGE`, and can check a received byte by comparing it with what `PIDGEN` answers for its low six bits. -/
def Obligations.HostCanCheckAPid : Prop :=
  ∀ (v : Byte) (s : State), s.err = 0#3 →
    ∃ p : Byte,
      exec (.pidgen (v &&& 0x3F#8)) s =
        .next { s with responses := s.responses ++ [⟨.ok, p⟩] } ∧
      (p = v ↔ ∃ id : Ident, pidFromId id = v)

/-! ## Faults (60_exceptions.md) -/

/-- 60_exceptions.md R128: fault entry writes the code, 1 to 4, to `ERR`, answers the code with value 0x00, and leaves
`ACC`, `CNT` and `PHASE` unchanged; it happens only when `ERR = 0`, so no word replaces a code that `ERR` holds. -/
def Obligations.FaultEntry : Prop :=
  (∀ (f : FaultKind) (s : State),
    raiseFault f s =
      { s with
        err := faultCode f, responses := s.responses ++ [⟨.raised f, 0x00#8⟩] } ∧
    statusCode (.raised f) = faultCode f ∧
    1 ≤ (faultCode f).toNat ∧ (faultCode f).toNat ≤ 4) ∧
  ∀ (s : State) (w : CmdWord) (rest : List HostMove),
    s.input = .command w :: rest → s.err ≠ 0#3 →
    ∃ t, step s = .next t ∧ t.err = s.err

/-- 60_exceptions.md R129: a faulted block answers every one of the 4096 words with `E_FAULTED` and `ERR` (0x01 to 0x04 for
the codes the block ever stores), and no state element changes. -/
def Obligations.FaultedBlockOnlyAnswers : Prop :=
  ∀ (s : State) (w : CmdWord) (rest : List HostMove),
    s.input = .command w :: rest → s.err ≠ 0#3 →
    step s =
      .next { s with
        input := rest, responses := s.responses ++ [⟨.eFaulted, s.err.setWidth 8⟩] } ∧
    (Inv s → 0x01 ≤ (s.err.setWidth 8).toNat ∧ (s.err.setWidth 8).toNat ≤ 0x04)

/-- 60_exceptions.md R125: on an unfaulted block a word with opcode 0x6 to 0xF raises `E_ILLEGAL`, in either phase, whatever
its argument is. -/
def Obligations.ReservedOpcodeIsIllegal : Prop :=
  ∀ (s : State) (w : CmdWord) (rest : List HostMove),
    s.input = .command w :: rest → s.err = 0#3 → 0x6 ≤ w.toNat / 256 →
    step s =
      .next { s with
        input := rest, err := 4#3,
        responses := s.responses ++ [⟨.raised .eIllegal, 0x00#8⟩] }

/-- 60_exceptions.md R127: the status of every word's response is the one the fixed order of checks gives. -/
def Obligations.ChecksAreMadeInOrder : Prop :=
  ∀ (s : State) (w : CmdWord) (rest : List HostMove),
    s.input = .command w :: rest →
    ∃ t v, step s = .next t ∧ t.responses = s.responses ++ [⟨statusByOrder s w, v⟩]

/-- 60_exceptions.md R121: on an unfaulted block each code is raised by exactly the commands and conditions of the table, is
both the status of the response and the value written to `ERR`, and comes with value 0x00. -/
def Obligations.FaultCauses : Prop :=
  ∀ (s : State) (w : CmdWord) (rest : List HostMove),
    s.input = .command w :: rest → s.err = 0#3 →
    ∃ t r,
      step s = .next t ∧ t.responses = s.responses ++ [r] ∧
      (t.err = 1#3 ↔ w.toNat / 256 = 1 ∧ 63 < w.toNat % 256) ∧
      (t.err = 2#3 ↔
        (w.toNat / 256 = 4 ∧ s.phase = .accum ∧ s.cnt = 8#4) ∨
        (w.toNat / 256 = 5 ∧ s.phase = .accum ∧ s.cnt = 0#4)) ∧
      (t.err = 3#3 ↔ (w.toNat / 256 = 4 ∨ w.toNat / 256 = 5) ∧ s.phase = .idle) ∧
      (t.err = 4#3 ↔ 6 ≤ w.toNat / 256) ∧
      t.err.toNat ≤ 4 ∧
      statusCode r.status = t.err ∧
      (t.err ≠ 0#3 → r.value = 0x00#8)

/-- 60_exceptions.md R133: a faulting command has none of its normal effect and returns no result, and no command after it
has any effect. -/
def Obligations.FaultsArePrecise : Prop :=
  ∀ (s : State) (w : CmdWord) (after : List CmdWord) (rest : List HostMove),
    s.err = 0#3 → s.input = .command w :: (after.map HostMove.command ++ rest) →
    ∃ t, step s = .next t ∧
      (t.err ≠ 0#3 →
        t.acc = s.acc ∧ t.cnt = s.cnt ∧ t.phase = s.phase ∧
        (∃ f, t.err = faultCode f ∧ t.responses = s.responses ++ [⟨.raised f, 0x00#8⟩]) ∧
        ∃ u, runSteps after.length t = .next u ∧ SameBlock t u ∧ u.input = rest ∧
          u.responses =
            t.responses ++ List.replicate after.length ⟨.eFaulted, t.err.setWidth 8⟩)

/-- 60_exceptions.md R130: no command leaves the faulted state or replaces the first fault's code; only a reset event does,
and after it the block is unfaulted with no checksum in progress. -/
def Obligations.OnlyResetLeavesTheFaultedState : Prop :=
  ∀ s : State, s.err ≠ 0#3 →
    (∀ i, ∃ t, exec i s = .next t ∧ SameBlock s t) ∧
    ∃ t, step s = .next t ∧
      (t.err = s.err ∨
        ((∃ rest, s.input = .reset :: rest) ∧ t.err = 0#3 ∧ t.phase = .idle))

/-- 60_exceptions.md R123: on an unfaulted block a `CKFIN` directly after a `CKINIT` faults `E_LEN`; of more than eight `CKADD`s
after a `CKINIT` eight succeed, the ninth faults `E_LEN` without being added, and the rest change nothing. -/
def Obligations.LengthFaults : Prop :=
  ∀ (s : State) (pid : Byte) (enhanced : Bool), s.err = 0#3 →
    (∀ (a : Byte) (rest : List HostMove),
      s.input = sendAll [ckinitOf pid enhanced, .ckfin a] ++ rest →
      ∃ t, runSteps 2 s = .next t ∧ t.err = 2#3 ∧ t.input = rest ∧
        t.responses =
          s.responses ++ [⟨.ok, 0x00#8⟩, ⟨.raised .eLen, 0x00#8⟩]) ∧
    (∀ (eight : List Byte) (ninth : Byte) (more : List Byte) (rest : List HostMove),
      eight.length = 8 →
      s.input =
        sendAll (ckinitOf pid enhanced :: (eight ++ ninth :: more).map Instr.ckadd) ++ rest →
      ∃ t u v,
        runSteps 9 s = .next t ∧ t.err = 0#3 ∧ t.cnt = 8#4 ∧ t.phase = .accum ∧
        t.acc = accAfter (accStart pid enhanced) eight ∧
        t.responses = s.responses ++ List.replicate 9 ⟨.ok, 0x00#8⟩ ∧
        step t = .next u ∧ u.err = 2#3 ∧ u.acc = t.acc ∧ u.cnt = t.cnt ∧ u.phase = t.phase ∧
        u.responses = t.responses ++ [⟨.raised .eLen, 0x00#8⟩] ∧
        runSteps more.length u = .next v ∧ SameBlock u v ∧ v.input = rest)

/-- 60_exceptions.md R124: `CKADD` and `CKFIN` raise `E_SEQ` when `PHASE = IDLE`, whatever `CNT` holds: so after reset, and
after a `CKFIN` that succeeded. -/
def Obligations.SequenceFaults : Prop :=
  (∀ (i : Instr) (x : Byte) (s : State),
    (i = .ckadd x ∨ i = .ckfin x) → s.err = 0#3 → s.phase = .idle →
    exec i s =
      .next { s with err := 3#3, responses := s.responses ++ [⟨.raised .eSeq, 0x00#8⟩] }) ∧
  State.reset.phase = .idle ∧ State.reset.err = 0#3 ∧
  (∀ (a : Byte) (s : State), s.err = 0#3 → s.phase = .accum → s.cnt ≠ 0#4 →
    ∃ t, exec (.ckfin a) s = .next t ∧ t.phase = .idle ∧ t.err = 0#3)

/-! ## Reset and runs (70_reset_and_hazards.md) -/

/-- 10_state.md R22: the reset values. -/
def Obligations.ResetValues : Prop :=
  State.reset.acc = 0x00#8 ∧ State.reset.cnt = 0#4 ∧ State.reset.phase = .idle ∧
  State.reset.err = 0#3

/-- 70_reset_and_hazards.md R140: a reset event makes the block's state the reset state, whatever it was, and makes no
response. That the pending moves and the responses given stay is the model's reading (log entry 9). -/
def Obligations.ResetEventMakesTheResetState : Prop :=
  ∀ (s : State) (rest : List HostMove), s.input = .reset :: rest →
    step s = .next ⟨0x00#8, 0#4, .idle, 0#3, rest, s.responses⟩

/-- The bounds of 10_state.md section 9 hold at reset, whatever the host will send. -/
def Obligations.BoundsHoldAtReset : Prop :=
  ∀ moves : List HostMove, Inv { State.reset with input := moves }

/-- 10_state.md section 9, derived there: every step from a state with `CNT` in 0..8 and `ERR` in 0..4 leads to such a
state. -/
def Obligations.EveryStepKeepsTheBounds : Prop :=
  ∀ s t : State, Inv s → step s = .next t → Inv t

/-- At reset no checksum is in progress, so what the sum tracks holds with nothing included. -/
def Obligations.SumIsTrackedAtReset : Prop :=
  ∀ moves : List HostMove, TracksSum { State.reset with input := moves } none

/-- 10_state.md section 9 (e), derived there: while a checksum is in progress on an unfaulted block `ACC` is the folded sum
of the bytes included so far and `CNT` the number of payload bytes among them; every step keeps it. -/
def Obligations.EveryStepTracksTheSum : Prop :=
  ∀ (s t : State) (g : Option Included),
    TracksSum s g → step s = .next t → TracksSum t (includedNext s g)

/-- 41_checksum.md section 4, derived there, up to the last `CKADD`: from any unfaulted state, after a `CKINIT` and `k`
`CKADD`s, `k` at most 8, with `NOP`s and in-range `PIDGEN`s anywhere between, `ACC` is `acc_k`, `CNT` is `k`, and each
of the `CKINIT` and the `CKADD`s answered `OK:0x00`. -/
def Obligations.CkaddsAccumulateThePayload : Prop :=
  ∀ (s : State) (pid : Byte) (enhanced : Bool) (payload : List Byte) (is : List Instr)
      (rest : List HostMove),
    s.err = 0#3 → payload.length ≤ 8 →
    is.filter (fun i => !neutral i) = ckinitOf pid enhanced :: payload.map Instr.ckadd →
    s.input = sendAll is ++ rest →
    ∃ t rs,
      runSteps is.length s = .next t ∧ t.input = rest ∧
      t.responses = s.responses ++ rs ∧ rs.length = is.length ∧
      answersOf is rs = List.replicate (payload.length + 1) ⟨.ok, 0x00#8⟩ ∧
      t.acc = accAfter (accStart pid enhanced) payload ∧ t.cnt.toNat = payload.length ∧
      t.phase = .accum ∧ t.err = 0#3

/-- 41_checksum.md section 4, derived there: the commands compute the function. From any unfaulted state, `CKINIT`, 1 to 8
`CKADD`s and `CKFIN`, with `NOP`s and in-range `PIDGEN`s anywhere between, answer `OK:0x00` `n + 1` times and then the
checksum of the source's function, and end in `IDLE`, unfaulted. -/
def Obligations.CommandsComputeTheChecksum : Prop :=
  ∀ (s : State) (pid : Byte) (enhanced : Bool) (payload : List Byte) (a : Byte)
      (is : List Instr) (rest : List HostMove),
    s.err = 0#3 → 1 ≤ payload.length → payload.length ≤ 8 →
    is.filter (fun i => !neutral i) =
      ckinitOf pid enhanced :: (payload.map Instr.ckadd ++ [.ckfin a]) →
    s.input = sendAll is ++ rest →
    ∃ t rs v,
      runSteps is.length s = .next t ∧ t.input = rest ∧
      t.responses = s.responses ++ rs ∧ rs.length = is.length ∧
      checksum pid payload enhanced = some v ∧
      answersOf is rs =
        List.replicate (payload.length + 1) ⟨.ok, 0x00#8⟩ ++ [⟨.ok, v⟩] ∧
      t.phase = .idle ∧ t.err = 0#3

/-- 10_state.md section 10, derived there: `ACC` and `CNT` in `IDLE`, and all but `ERR` while faulted, cannot be observed:
two states that agree on the rest give the same responses to every sequence of moves. -/
def Obligations.HiddenStateIsUnobservable : Prop :=
  ∀ (n : Nat) (s₁ s₂ : State), SameView s₁ s₂ →
    ∃ t₁ t₂ rs,
      runSteps n s₁ = .next t₁ ∧ runSteps n s₂ = .next t₂ ∧ SameView t₁ t₂ ∧
      t₁.responses = s₁.responses ++ rs ∧ t₂.responses = s₂.responses ++ rs

/-- 70_reset_and_hazards.md section 5: a run ends with the host's sequence, never before it, and yields one response per
command, none for a reset; from any state. -/
def Obligations.RunAnswersEveryCommandOnce : Prop :=
  ∀ s : State, ∃ t rs,
    runSteps s.input.length s = .next t ∧ t.input = [] ∧
    t.responses = s.responses ++ rs ∧ rs.length = commandCount s.input

/-- 20_memory.md section 6: commands and reset events take effect one at a time in order, so what the first moves do and
answer does not depend on any later move. -/
def Obligations.LaterMovesDoNotMatter : Prop :=
  ∀ (s : State) (now later : List HostMove),
    ∃ t : State,
      runSteps now.length { s with input := now } = .next { t with input := [] } ∧
      runSteps now.length { s with input := now ++ later } = .next { t with input := later }
end

