-- ==== Sys2Proof/Laws/Functions.lean ====
section
/-! SUPPORT. What each function of the checksum and each operand form can do, said once. -/

namespace Sys2Proof.Machine

/-- One subtraction is enough: the fold of two bytes' sum fits a byte (41_checksum.md R87). -/
theorem foldSum_lt (t : Nat) (h : t ≤ 510) : foldSum t < 256 := by
  unfold foldSum Config.foldLimit Config.foldAmount
  split <;> omega

/-- The folded sum of two bytes as a number (41_checksum.md R81). -/
theorem eacAdd_toNat (a b : Byte) : (eacAdd a b).toNat = foldSum (a.toNat + b.toNat) := by
  have hsum : a.toNat + b.toNat ≤ 510 := by omega
  simp only [eacAdd, BitVec.toNat_ofNat]
  exact Nat.mod_eq_of_lt (foldSum_lt _ hsum)

/-- The complement as a subtraction from 255 (00_scope.md R6). -/
theorem complement_toNat (acc : Byte) : (complement acc).toNat = 255 - acc.toNat := by
  simp [complement, BitVec.toNat_not]

@[simp] theorem accAfter_nil (start : Byte) : accAfter start [] = start := rfl

@[simp] theorem accAfter_cons (start b : Byte) (bs : List Byte) :
    accAfter start (b :: bs) = accAfter (eacAdd start b) bs := rfl

@[simp] theorem accAfter_append (start : Byte) (bs cs : List Byte) :
    accAfter start (bs ++ cs) = accAfter (accAfter start bs) cs := List.foldl_append

theorem lengthInDomain_iff (n : Nat) : lengthInDomain n = true ↔ 1 ≤ n ∧ n ≤ 8 := by
  simp only [lengthInDomain, decide_eq_true_eq]

theorem identInRange_iff (arg : Byte) : identInRange arg = true ↔ arg.toNat ≤ 63 := by
  simp only [identInRange, decide_eq_true_eq]

/-- One folding pass keeps the residue modulo 255 (41_checksum.md R90). -/
theorem foldPass_mod (t : Nat) : foldPass t % 255 = t % 255 := by
  unfold foldPass
  omega

/-- A folding pass makes a value above 255 smaller and keeps it positive (41_checksum.md R90). -/
theorem foldPass_lt (t : Nat) (h : 255 < t) : foldPass t < t ∧ 0 < foldPass t := by
  unfold foldPass
  omega

end Sys2Proof.Machine
end

