-- ==== Sys2Proof/Laws/State.lean ====
section
/-! SUPPORT. One lemma per field per update of the state, so that no proof unfolds a record update. -/

namespace Sys2Proof.Machine

section Respond
variable (st : Status) (v : Byte) (s : State)
@[simp] theorem respond_acc : (respond st v s).acc = s.acc := rfl
@[simp] theorem respond_cnt : (respond st v s).cnt = s.cnt := rfl
@[simp] theorem respond_phase : (respond st v s).phase = s.phase := rfl
@[simp] theorem respond_err : (respond st v s).err = s.err := rfl
@[simp] theorem respond_input : (respond st v s).input = s.input := rfl
@[simp] theorem respond_responses : (respond st v s).responses = s.responses ++ [⟨st, v⟩] := rfl
end Respond

section RaiseFault
variable (f : FaultKind) (s : State)
@[simp] theorem raiseFault_acc : (raiseFault f s).acc = s.acc := rfl
@[simp] theorem raiseFault_cnt : (raiseFault f s).cnt = s.cnt := rfl
@[simp] theorem raiseFault_phase : (raiseFault f s).phase = s.phase := rfl
@[simp] theorem raiseFault_err : (raiseFault f s).err = faultCode f := rfl
@[simp] theorem raiseFault_input : (raiseFault f s).input = s.input := rfl
@[simp] theorem raiseFault_responses :
    (raiseFault f s).responses = s.responses ++ [⟨.raised f, 0x00#8⟩] := rfl
end RaiseFault

section AnswerFaulted
variable (s : State)
@[simp] theorem answerFaulted_acc : (answerFaulted s).acc = s.acc := rfl
@[simp] theorem answerFaulted_cnt : (answerFaulted s).cnt = s.cnt := rfl
@[simp] theorem answerFaulted_phase : (answerFaulted s).phase = s.phase := rfl
@[simp] theorem answerFaulted_err : (answerFaulted s).err = s.err := rfl
@[simp] theorem answerFaulted_input : (answerFaulted s).input = s.input := rfl
@[simp] theorem answerFaulted_responses :
    (answerFaulted s).responses = s.responses ++ [⟨.eFaulted, errValue s⟩] := rfl
end AnswerFaulted

section ResetBlock
variable (s : State)
@[simp] theorem resetBlock_acc : (resetBlock s).acc = 0x00#8 := rfl
@[simp] theorem resetBlock_cnt : (resetBlock s).cnt = 0#4 := rfl
@[simp] theorem resetBlock_phase : (resetBlock s).phase = .idle := rfl
@[simp] theorem resetBlock_err : (resetBlock s).err = 0#3 := rfl
@[simp] theorem resetBlock_input : (resetBlock s).input = s.input := rfl
@[simp] theorem resetBlock_responses : (resetBlock s).responses = s.responses := rfl
end ResetBlock

section StartSum
variable (start : Byte) (s : State)
@[simp] theorem startSum_acc : (startSum start s).acc = start := rfl
@[simp] theorem startSum_cnt : (startSum start s).cnt = 0#4 := rfl
@[simp] theorem startSum_phase : (startSum start s).phase = .accum := rfl
@[simp] theorem startSum_err : (startSum start s).err = s.err := rfl
@[simp] theorem startSum_input : (startSum start s).input = s.input := rfl
@[simp] theorem startSum_responses : (startSum start s).responses = s.responses := rfl
end StartSum

section AddByte
variable (b : Byte) (s : State)
@[simp] theorem addByte_acc : (addByte b s).acc = eacAdd s.acc b := rfl
@[simp] theorem addByte_cnt : (addByte b s).cnt = cntSucc s.cnt := rfl
@[simp] theorem addByte_phase : (addByte b s).phase = s.phase := rfl
@[simp] theorem addByte_err : (addByte b s).err = s.err := rfl
@[simp] theorem addByte_input : (addByte b s).input = s.input := rfl
@[simp] theorem addByte_responses : (addByte b s).responses = s.responses := rfl
end AddByte

section EndSum
variable (s : State)
@[simp] theorem endSum_acc : (endSum s).acc = s.acc := rfl
@[simp] theorem endSum_cnt : (endSum s).cnt = s.cnt := rfl
@[simp] theorem endSum_phase : (endSum s).phase = .idle := rfl
@[simp] theorem endSum_err : (endSum s).err = s.err := rfl
@[simp] theorem endSum_input : (endSum s).input = s.input := rfl
@[simp] theorem endSum_responses : (endSum s).responses = s.responses := rfl
end EndSum

section PlaceWord
variable (w : CmdWord) (s : State)
@[simp] theorem placeWord_acc : (placeWord w s).acc = s.acc := rfl
@[simp] theorem placeWord_cnt : (placeWord w s).cnt = s.cnt := rfl
@[simp] theorem placeWord_phase : (placeWord w s).phase = s.phase := rfl
@[simp] theorem placeWord_err : (placeWord w s).err = s.err := rfl
@[simp] theorem placeWord_input : (placeWord w s).input = .command w :: s.input := rfl
@[simp] theorem placeWord_responses : (placeWord w s).responses = s.responses := rfl
end PlaceWord

end Sys2Proof.Machine
end

