-- ==== Sys2Proof/Laws/Ops.lean ====
section
/-! SUPPORT. What each shared operation, each meaning and the step can do, said once. -/

namespace Sys2Proof.Machine

theorem faulted_iff (s : State) : faulted s = true ↔ s.err ≠ 0#3 := by simp [faulted]

/-- The first check of every command: a faulted block answers, another carries the command out. -/
theorem unlessFaulted_cases (body : State → State) (s : State) :
    (s.err ≠ 0#3 ∧ unlessFaulted body s = answerFaulted s) ∨
      (s.err = 0#3 ∧ unlessFaulted body s = body s) := by
  by_cases h : s.err = 0#3
  · exact .inr ⟨h, by simp [unlessFaulted, faulted, h]⟩
  · exact .inl ⟨h, by simp [unlessFaulted, faulted, h]⟩

theorem unlessFaulted_of_err_ne (body : State → State) (s : State) (h : s.err ≠ 0#3) :
    unlessFaulted body s = answerFaulted s := by simp [unlessFaulted, faulted, h]

theorem unlessFaulted_of_err_zero (body : State → State) (s : State) (h : s.err = 0#3) :
    unlessFaulted body s = body s := by simp [unlessFaulted, faulted, h]

/-- Below 15 the counter counts; only at 15 does it take the free value. -/
theorem cntSucc_toNat (c : Count) (h : c.toNat < 15) : (cntSucc c).toNat = c.toNat + 1 := by
  have hne : c ≠ 15#4 := by
    intro h15
    simp [h15] at h
  have hlt : c.toNat + 1 < 16 := by omega
  simp [cntSucc, hne, BitVec.toNat_add, Nat.mod_eq_of_lt hlt]

theorem takeMove_nil (s : State) (h : s.input = []) : takeMove s = none := by
  simp [takeMove, h]

theorem takeMove_cons (s : State) (m : HostMove) (rest : List HostMove) (h : s.input = m :: rest) :
    takeMove s = some (m, { s with input := rest }) := by simp [takeMove, h]

/-- Every fault's code is one of 1..4, so never 0 (60_exceptions.md R121). -/
theorem faultCode_range (f : FaultKind) : 1 ≤ (faultCode f).toNat ∧ (faultCode f).toNat ≤ 4 := by
  cases f <;> decide

/-- A `CKADD` on an unfaulted block faults, with the phase checked first, or folds and counts. -/
theorem execCkadd_cases (b : Byte) (s : State) (h : s.err = 0#3) :
    (s.phase = .idle ∧ execCkadd b s = .next (raiseFault .eSeq s)) ∨
      (s.phase = .accum ∧ s.cnt = 8#4 ∧ execCkadd b s = .next (raiseFault .eLen s)) ∨
      (s.phase = .accum ∧ s.cnt ≠ 8#4 ∧ execCkadd b s = .next (respond .ok 0x00#8 (addByte b s))) := by
  cases hp : s.phase <;> by_cases hc : s.cnt = 8#4 <;>
    simp [execCkadd, unlessFaulted, faulted, h, hp, hc]

/-- A `CKFIN` on an unfaulted block faults, with the phase checked first, or returns the complement and ends. -/
theorem execCkfin_cases (arg : Byte) (s : State) (h : s.err = 0#3) :
    (s.phase = .idle ∧ execCkfin arg s = .next (raiseFault .eSeq s)) ∨
      (s.phase = .accum ∧ s.cnt = 0#4 ∧ execCkfin arg s = .next (raiseFault .eLen s)) ∨
      (s.phase = .accum ∧ s.cnt ≠ 0#4 ∧
        execCkfin arg s = .next (endSum (respond .ok (complement s.acc) s))) := by
  cases hp : s.phase <;> by_cases hc : s.cnt = 0#4 <;>
    simp [execCkfin, unlessFaulted, faulted, h, hp, hc]

/-- What a command word does, by what it decodes to. -/
theorem runCommand_of_decode (w : CmdWord) (s : State) (i : Instr) (h : decode w = .ok i) :
    runCommand w s = exec i s := by simp only [runCommand, h]

theorem runCommand_of_reserved (w : CmdWord) (s : State) (r : Reject) (h : decode w = .error r) :
    runCommand w s = .next (illegalCommand s) := by
  cases r
  simp only [runCommand, h]

/-- The step by its move: it waits, or carries the move out on the state with the move taken. -/
theorem step_of_nil (s : State) (h : s.input = []) : step s = .next s := by
  simp only [step, takeMove_nil s h]

theorem step_of_cons (s : State) (m : HostMove) (rest : List HostMove) (h : s.input = m :: rest) :
    step s = runMove m { s with input := rest } := by
  simp only [step, takeMove_cons s m rest h]

end Sys2Proof.Machine
end

