-- ==== Sys2Proof/Laws/PerInstr.lean ====
section
/-! SUPPORT. What holds of every instruction as syntax, one lemma per constructor. -/

namespace Sys2Proof.Laws.EncodedForm

/-- The word of an instruction carries its opcode in bits 11:8, its argument in bits 7:0, and is well formed
(30_encoding.md R40, R42). -/
def Statement (i : Instr) : Prop :=
  opField (encode i) = opcodeOf i ∧ argField (encode i) = operandOf i ∧
    wordWellFormed (encode i) = true

/-- A word made of an opcode and an argument, as a number. -/
theorem toNat_append (op : Opcode) (arg : Byte) :
    (op ++ arg : CmdWord).toNat = op.toNat * 256 + arg.toNat := by
  rw [BitVec.toNat_append, ← Nat.shiftLeft_add_eq_or_of_lt arg.isLt, Nat.shiftLeft_eq]

/-- The two fields of a word made of an opcode and an argument. -/
theorem fields_of_append (op : Opcode) (arg : Byte) :
    opField (op ++ arg) = op ∧ argField (op ++ arg) = arg := by
  have hw := toNat_append op arg
  constructor <;> apply BitVec.eq_of_toNat_eq
  · simp only [opField, BitVec.extractLsb'_toNat, Nat.shiftRight_eq_div_pow, hw]
    omega
  · simp only [argField, BitVec.extractLsb'_toNat, Nat.shiftRight_eq_div_pow, hw]
    omega

theorem of_opcode (i : Instr) (h : (opcodeOf i).toNat ≤ 5) : Statement i := by
  refine ⟨(fields_of_append _ _).1, (fields_of_append _ _).2, ?_⟩
  simp only [wordWellFormed, decide_eq_true_eq]
  have hw := toNat_append (opcodeOf i) (operandOf i)
  simp only [encode, hw]
  omega

theorem nop (arg : Byte) : Statement (.nop arg) := of_opcode _ (by simp [opcodeOf])
theorem pidgen (arg : Byte) : Statement (.pidgen arg) := of_opcode _ (by simp [opcodeOf])
theorem ckinitC (arg : Byte) : Statement (.ckinitC arg) := of_opcode _ (by simp [opcodeOf])
theorem ckinitE (pid : Byte) : Statement (.ckinitE pid) := of_opcode _ (by simp [opcodeOf])
theorem ckadd (b : Byte) : Statement (.ckadd b) := of_opcode _ (by simp [opcodeOf])
theorem ckfin (arg : Byte) : Statement (.ckfin arg) := of_opcode _ (by simp [opcodeOf])

end Sys2Proof.Laws.EncodedForm
end

