-- ==== Sys2Proof/Laws/Step.lean ====
section
/-! SUPPORT. What a command word and a step can do, said once: the one case split that claims about all commands cite. -/

namespace Sys2Proof.Machine

theorem opField_toNat (w : CmdWord) : (opField w).toNat = w.toNat / 256 := by
  have hw := w.isLt
  simp only [opField, BitVec.extractLsb'_toNat, Nat.shiftRight_eq_div_pow]
  omega

theorem argField_eq (w : CmdWord) : argField w = w.setWidth 8 := by
  apply BitVec.eq_of_toNat_eq
  simp [argField]

theorem opField_eq_iff (w : CmdWord) (k : Nat) (hk : k < 16) :
    opField w = BitVec.ofNat 4 k ↔ w.toNat / 256 = k := by
  rw [← BitVec.toNat_inj, opField_toNat, BitVec.toNat_ofNat, Nat.mod_eq_of_lt hk]

/-- Everything a word can decode to, by its opcode as a number (30_encoding.md R42). -/
inductive DecodesTo (w : CmdWord) : Prop where
  | nop (op : w.toNat / 256 = 0) (h : decode w = .ok (.nop (w.setWidth 8)))
  | pidgen (op : w.toNat / 256 = 1) (h : decode w = .ok (.pidgen (w.setWidth 8)))
  | ckinitC (op : w.toNat / 256 = 2) (h : decode w = .ok (.ckinitC (w.setWidth 8)))
  | ckinitE (op : w.toNat / 256 = 3) (h : decode w = .ok (.ckinitE (w.setWidth 8)))
  | ckadd (op : w.toNat / 256 = 4) (h : decode w = .ok (.ckadd (w.setWidth 8)))
  | ckfin (op : w.toNat / 256 = 5) (h : decode w = .ok (.ckfin (w.setWidth 8)))
  | reserved (op : 6 ≤ w.toNat / 256) (h : decode w = .error (.reservedOpcode (opField w)))

theorem decodesTo (w : CmdWord) : DecodesTo w := by
  have h0 := opField_eq_iff w 0 (by decide)
  have h1 := opField_eq_iff w 1 (by decide)
  have h2 := opField_eq_iff w 2 (by decide)
  have h3 := opField_eq_iff w 3 (by decide)
  have h4 := opField_eq_iff w 4 (by decide)
  have h5 := opField_eq_iff w 5 (by decide)
  have harg := argField_eq w
  by_cases c0 : w.toNat / 256 = 0
  · exact .nop c0 (by simp [decode, h0.2 c0, harg])
  by_cases c1 : w.toNat / 256 = 1
  · exact .pidgen c1 (by simp [decode, h1.2 c1, harg])
  by_cases c2 : w.toNat / 256 = 2
  · exact .ckinitC c2 (by simp [decode, h2.2 c2, harg])
  by_cases c3 : w.toNat / 256 = 3
  · exact .ckinitE c3 (by simp [decode, h3.2 c3, harg])
  by_cases c4 : w.toNat / 256 = 4
  · exact .ckadd c4 (by simp [decode, h4.2 c4, harg])
  by_cases c5 : w.toNat / 256 = 5
  · exact .ckfin c5 (by simp [decode, h5.2 c5, harg])
  refine .reserved (by omega) ?_
  rw [decode, if_neg (mt h0.1 c0), if_neg (mt h1.1 c1), if_neg (mt h2.1 c2), if_neg (mt h3.1 c3),
    if_neg (mt h4.1 c4), if_neg (mt h5.1 c5)]

/-- Everything a command word can do to a state, by its opcode and the checks in their order
(30_encoding.md R50, 60_exceptions.md R127). -/
inductive CommandEffect (w : CmdWord) (s : State) : State → Prop where
  | faulted (err : s.err ≠ 0#3) : CommandEffect w s (answerFaulted s)
  | nop (err : s.err = 0#3) (op : w.toNat / 256 = 0) : CommandEffect w s (respond .ok 0x00#8 s)
  | pidgen (err : s.err = 0#3) (op : w.toNat / 256 = 1) (arg : w.toNat % 256 ≤ 63) :
      CommandEffect w s (respond .ok (pidFromId (identOf (w.setWidth 8))) s)
  | pidgenRange (err : s.err = 0#3) (op : w.toNat / 256 = 1) (arg : 63 < w.toNat % 256) :
      CommandEffect w s (raiseFault .eRange s)
  | ckinitC (err : s.err = 0#3) (op : w.toNat / 256 = 2) :
      CommandEffect w s (respond .ok 0x00#8 (startSum 0x00#8 s))
  | ckinitE (err : s.err = 0#3) (op : w.toNat / 256 = 3) :
      CommandEffect w s (respond .ok 0x00#8 (startSum (w.setWidth 8) s))
  | seq (err : s.err = 0#3) (op : w.toNat / 256 = 4 ∨ w.toNat / 256 = 5) (phase : s.phase = .idle) :
      CommandEffect w s (raiseFault .eSeq s)
  | ckaddLen (err : s.err = 0#3) (op : w.toNat / 256 = 4) (phase : s.phase = .accum)
      (cnt : s.cnt = 8#4) : CommandEffect w s (raiseFault .eLen s)
  | ckadd (err : s.err = 0#3) (op : w.toNat / 256 = 4) (phase : s.phase = .accum)
      (cnt : s.cnt ≠ 8#4) : CommandEffect w s (respond .ok 0x00#8 (addByte (w.setWidth 8) s))
  | ckfinLen (err : s.err = 0#3) (op : w.toNat / 256 = 5) (phase : s.phase = .accum)
      (cnt : s.cnt = 0#4) : CommandEffect w s (raiseFault .eLen s)
  | ckfin (err : s.err = 0#3) (op : w.toNat / 256 = 5) (phase : s.phase = .accum)
      (cnt : s.cnt ≠ 0#4) : CommandEffect w s (endSum (respond .ok (complement s.acc) s))
  | illegal (err : s.err = 0#3) (op : 6 ≤ w.toNat / 256) :
      CommandEffect w s (raiseFault .eIllegal s)

/-- A faulted block answers every instruction, whichever it is. -/
theorem exec_of_err_ne (i : Instr) (s : State) (h : s.err ≠ 0#3) :
    exec i s = .next (answerFaulted s) := by
  cases i <;> exact congrArg Host.Outcome.next (unlessFaulted_of_err_ne _ s h)

theorem runCommand_cases (w : CmdWord) (s : State) :
    ∃ t, runCommand w s = .next t ∧ CommandEffect w s t := by
  by_cases he : s.err = 0#3
  · cases decodesTo w with
    | nop op h =>
      rw [runCommand_of_decode _ _ _ h, exec, execNop, unlessFaulted_of_err_zero _ s he]
      exact ⟨_, rfl, .nop he op⟩
    | pidgen op h =>
      rw [runCommand_of_decode _ _ _ h, exec, execPidgen, unlessFaulted_of_err_zero _ s he]
      by_cases ha : w.toNat % 256 ≤ 63
      · rw [if_pos ((identInRange_iff _).2 (by simpa using ha))]
        exact ⟨_, rfl, .pidgen he op ha⟩
      · rw [if_neg (mt (identInRange_iff _).1 (by simpa using ha))]
        exact ⟨_, rfl, .pidgenRange he op (by omega)⟩
    | ckinitC op h =>
      rw [runCommand_of_decode _ _ _ h, exec, execCkinitC, unlessFaulted_of_err_zero _ s he]
      exact ⟨_, rfl, .ckinitC he op⟩
    | ckinitE op h =>
      rw [runCommand_of_decode _ _ _ h, exec, execCkinitE, unlessFaulted_of_err_zero _ s he]
      exact ⟨_, rfl, .ckinitE he op⟩
    | ckadd op h =>
      rw [runCommand_of_decode _ _ _ h]
      obtain ⟨hp, h'⟩ | ⟨hp, hc, h'⟩ | ⟨hp, hc, h'⟩ := execCkadd_cases (w.setWidth 8) s he
      · exact ⟨_, h', .seq he (.inl op) hp⟩
      · exact ⟨_, h', .ckaddLen he op hp hc⟩
      · exact ⟨_, h', .ckadd he op hp hc⟩
    | ckfin op h =>
      rw [runCommand_of_decode _ _ _ h]
      obtain ⟨hp, h'⟩ | ⟨hp, hc, h'⟩ | ⟨hp, hc, h'⟩ := execCkfin_cases (w.setWidth 8) s he
      · exact ⟨_, h', .seq he (.inr op) hp⟩
      · exact ⟨_, h', .ckfinLen he op hp hc⟩
      · exact ⟨_, h', .ckfin he op hp hc⟩
    | reserved op h =>
      rw [runCommand_of_reserved _ _ _ h, illegalCommand, unlessFaulted_of_err_zero _ s he]
      exact ⟨_, rfl, .illegal he op⟩
  · refine ⟨answerFaulted s, ?_, .faulted he⟩
    cases hd : decode w with
    | ok i => rw [runCommand_of_decode _ _ _ hd, exec_of_err_ne i s he]
    | error r =>
      rw [runCommand_of_reserved _ _ _ hd, illegalCommand, unlessFaulted_of_err_ne _ s he]

/-- Everything a step can do: the block waits, is reset, or carries a command word out. -/
theorem step_cases (s : State) :
    (s.input = [] ∧ step s = .next s) ∨
      (∃ rest, s.input = .reset :: rest ∧ step s = .next (resetBlock { s with input := rest })) ∨
      (∃ w rest t, s.input = .command w :: rest ∧ step s = .next t ∧
        CommandEffect w { s with input := rest } t) := by
  cases hi : s.input with
  | nil => exact .inl ⟨rfl, step_of_nil s hi⟩
  | cons m rest =>
    cases m with
    | reset => exact .inr (.inl ⟨rest, rfl, step_of_cons s _ rest hi⟩)
    | command w =>
      obtain ⟨t, ht, he⟩ := runCommand_cases w { s with input := rest }
      exact .inr (.inr ⟨w, rest, t, rfl, (step_of_cons s _ rest hi).trans ht, he⟩)

end Sys2Proof.Machine
end

