-- ==== Sys2Proof/Laws/Runs.lean ====
section
/-! SUPPORT. Runs of several steps: how they compose, and that no step stops. -/

namespace Sys2Proof.Machine

@[simp] theorem runSteps_zero (s : State) : runSteps 0 s = .next s := rfl

theorem runSteps_succ (n : Nat) (s t : State) (h : step s = .next t) :
    runSteps (n + 1) s = runSteps n t := by simp only [runSteps, h]

/-- No step stops the machine (70_reset_and_hazards.md R152). -/
theorem step_answers (s : State) : ∃ t, step s = .next t := by
  obtain ⟨-, h⟩ | ⟨rest, -, h⟩ | ⟨w, rest, t, -, h, -⟩ := step_cases s <;> exact ⟨_, h⟩

/-- A run of `m + n` steps is a run of `n` steps from where `m` steps lead. -/
theorem runSteps_add (m n : Nat) (s t : State) (h : runSteps m s = .next t) :
    runSteps (m + n) s = runSteps n t := by
  induction m generalizing s with
  | zero =>
    cases h
    rw [Nat.zero_add]
  | succ m ih =>
    obtain ⟨u, hu⟩ := step_answers s
    rw [runSteps_succ m s u hu] at h
    rw [Nat.add_right_comm, runSteps_succ (m + n) s u hu]
    exact ih u h

@[simp] theorem sendAll_nil : sendAll [] = [] := rfl

@[simp] theorem sendAll_cons (i : Instr) (is : List Instr) :
    sendAll (i :: is) = .command (encode i) :: sendAll is := rfl

theorem answersOf_append (is js : List Instr) (rs qs : List Resp) (h : is.length = rs.length) :
    answersOf (is ++ js) (rs ++ qs) = answersOf is rs ++ answersOf js qs := by
  simp [answersOf, List.zip_append h]

end Sys2Proof.Machine
end

