-- ==== Sys2Proof/Tests/Slice0.lean ====
section
/-! SUPPORT. Tests whose expected results stand in 95_test_vectors.md or another file of spec/, the smoke test of the
well-formedness checks, and for each statement with hypotheses a state and operands that meet them. -/

namespace Sys2Proof.Tests

open Sys2Proof.Machine

/-- A state in the notation of 95_test_vectors.md, `ACC, CNT, PHASE, ERR`, with a command word pending. -/
def before (acc : Byte) (cnt : Count) (phase : Phase) (err : Code) (w : CmdWord) : State :=
  ⟨acc, cnt, phase, err, [.command w], []⟩

/-- The state after one answered command. -/
def after (acc : Byte) (cnt : Count) (phase : Phase) (err : Code) (st : Status) (v : Byte) : State :=
  ⟨acc, cnt, phase, err, [], [⟨st, v⟩]⟩

/-- A state with nothing pending. -/
def idleState (acc : Byte) (cnt : Count) (phase : Phase) (err : Code) : State :=
  ⟨acc, cnt, phase, err, [], []⟩

/-! ### Well-formedness: for each check an ill-formed term that it refuses -/

theorem test_word_reserved_is_ill_formed :
    wordWellFormed 0x600#12 = false ∧ wordWellFormed 0xFFF#12 = false ∧
      wordWellFormed 0x5FF#12 = true := by decide

theorem test_operand_above_255_is_ill_formed :
    operandFits 256 = false ∧ operandFits 255 = true ∧
      lineWellFormed (.command .pidgen (some 256)) = false := by decide

theorem test_payload_checks_refuse :
    payloadFits [] = false ∧ payloadFits [1, 2, 3, 4, 5, 6, 7, 8, 9] = false ∧
      payloadFits [256] = false ∧ payloadFits [1, 2, 3, 4, 5, 6, 7, 8] = true := by decide

theorem test_line_checks_refuse :
    lineWellFormed (.word 4096) = false ∧ lineWellFormed (.cksumC []) = false ∧
      lineWellFormed (.cksumE 256 [1]) = false ∧ lineWellFormed (.cksumE 6 []) = false := by decide

/-- No argument of a command is ill formed (30_encoding.md R46): the check accepts every one. -/
theorem test_every_instruction_is_well_formed :
    instrWellFormed (.pidgen 0x40) = true ∧ instrWellFormed (.nop 0xFF) = true := by decide

/-! ### Decoding: words of 95_test_vectors.md section 2.5, bit by bit -/

theorem test_decode_nop : decode 0b0000_00000000#12 = .ok (.nop 0x00) := by rfl
theorem test_decode_pidgen : decode 0b0001_00111111#12 = .ok (.pidgen 0x3F) := by rfl
theorem test_decode_ckinitC : decode 0b0010_00000110#12 = .ok (.ckinitC 0x06) := by rfl
theorem test_decode_ckinitE : decode 0b0011_00000110#12 = .ok (.ckinitE 0x06) := by rfl
theorem test_decode_ckadd : decode 0b0100_00110011#12 = .ok (.ckadd 0x33) := by rfl
theorem test_decode_ckfin : decode 0b0101_00000000#12 = .ok (.ckfin 0x00) := by rfl
theorem test_decode_reserved_low : decode 0b0110_00000000#12 = .error (.reservedOpcode 0x6) := by rfl
theorem test_decode_reserved_high : decode 0b1111_11111111#12 = .error (.reservedOpcode 0xF) := by rfl
theorem test_encode_words :
    encode (.pidgen 0x06) = 0x106 ∧ encode (.ckinitE 0x06) = 0x306 ∧ encode (.ckadd 0xFF) = 0x4FF ∧
      encode (.ckfin 0xAA) = 0x5AA := by decide
theorem test_table_word_rows :
    decodeTableWord 12 0x433 = some (.ckadd 0x33) ∧ decodeTableWord 16 0x200 = some (.ckinitC 0x00) ∧
      decodeTableWord 12 0x600 = none := by decide
/-- 95_test_vectors.md section 2.5, the response words. -/
theorem test_response_words :
    respWord ⟨.ok, 0x60⟩ = 0x060 ∧ respWord ⟨.raised .eLen, 0⟩ = 0x200 ∧
      respWord ⟨.raised .eSeq, 0⟩ = 0x300 ∧ respWord ⟨.raised .eIllegal, 0⟩ = 0x400 ∧
      respWord ⟨.eFaulted, 0x02⟩ = 0x702 := by decide

/-! ### The functions: 95_test_vectors.md sections 2.1 to 2.3 -/

theorem test_pid_values :
    pidFromId 0x06 = 0x06 ∧ pidFromId 0x02 = 0x42 ∧ pidFromId 0x00 = 0x80 ∧ pidFromId 0x3F = 0xBF ∧
      pidFromId 0x12 = 0x92 ∧ pidFromId 0x2C = 0xEC := by decide
theorem test_eacAdd_folds :
    eacAdd 0xFF 0x01 = 0x01 ∧ eacAdd 0xFF 0x00 = 0xFF ∧ eacAdd 0xD2 0x33 = 0x06 ∧
      eacAdd 0xFF 0x33 = 0x33 := by decide
theorem test_checksum_vectors :
    checksum 0x06 (List.replicate 8 0x33) false = some 0x66 ∧
      checksum 0x06 (List.replicate 8 0x33) true = some 0x60 ∧
      checksum 0x00 [0x4A, 0x55, 0x93, 0xE5] false = some 0xE6 ∧
      checksum 0x47 [0xFF, 0xFF, 0xFF, 0xFF, 0xFF, 0xFF, 0xFF, 0xBF] true = some 0xF8 := by decide
theorem test_carry_fold_two_passes :
    foldPass 511 = 256 ∧ foldPass 256 = 1 ∧ foldPass 2047 = 262 ∧ foldPass 262 = 7 := by decide

/-! ### The commands: 95_test_vectors.md section 2.4, one step each -/

theorem test_nop_in_accum :
    step (before 0x39 1 .accum 0 0x0FF) = .next (after 0x39 1 .accum 0 .ok 0x00) := by rfl
theorem test_nop_on_faulted :
    step (before 0xFF 8 .accum 2 0x000) = .next (after 0xFF 8 .accum 2 .eFaulted 0x02) := by rfl
theorem test_pidgen_in_accum :
    step (before 0x39 1 .accum 0 0x106) = .next (after 0x39 1 .accum 0 .ok 0x06) := by rfl
theorem test_pidgen_out_of_range :
    step (before 0x39 1 .accum 0 0x140) =
      .next (after 0x39 1 .accum 1 (.raised .eRange) 0x00) := by rfl
theorem test_ckinitC_abandons :
    step (before 0x39 1 .accum 0 0x206) = .next (after 0x00 0 .accum 0 .ok 0x00) := by rfl
theorem test_ckinitC_after_ckfin :
    step (before 0x9F 8 .idle 0 0x200) = .next (after 0x00 0 .accum 0 .ok 0x00) := by rfl
theorem test_ckinitE_from_reset :
    step (before 0x00 0 .idle 0 0x3FF) = .next (after 0xFF 0 .accum 0 .ok 0x00) := by rfl
theorem test_ckinitE_on_faulted :
    step (before 0x00 0 .idle 3 0x306) = .next (after 0x00 0 .idle 3 .eFaulted 0x03) := by rfl
theorem test_ckadd_folds_256 :
    step (before 0xFF 1 .accum 0 0x401) = .next (after 0x01 2 .accum 0 .ok 0x00) := by rfl
theorem test_ckadd_ninth :
    step (before 0x9F 8 .accum 0 0x400) =
      .next (after 0x9F 8 .accum 2 (.raised .eLen) 0x00) := by rfl
theorem test_ckfin_answers :
    step (before 0x19 4 .accum 0 0x5AA) = .next (after 0x19 4 .idle 0 .ok 0xE6) := by rfl
theorem test_ckfin_in_idle :
    step (before 0x9F 8 .idle 0 0x500) =
      .next (after 0x9F 8 .idle 3 (.raised .eSeq) 0x00) := by rfl
theorem test_reserved_word :
    step (before 0x39 1 .accum 0 0x733) =
      .next (after 0x39 1 .accum 4 (.raised .eIllegal) 0x00) := by rfl
theorem test_reserved_word_on_faulted :
    step (before 0x00 0 .idle 1 0x600) = .next (after 0x00 0 .idle 1 .eFaulted 0x01) := by rfl
/-- 95_test_vectors.md program P5, row 14. -/
theorem test_reset_event :
    step { idleState 0xFF 8 .accum 2 with input := [.reset] } = .next (idleState 0 0 .idle 0) := by rfl
theorem test_placed_word_runs_after_reset :
    step (State.reset.withFetchWord 12 0x106) = .next (after 0x00 0 .idle 0 .ok 0x06) := by rfl

/-! ### The assembler: 30_encoding.md R48 and R49 -/

theorem test_assemble_lines :
    assemble (.command .ckadd (some 0x33)) = some [.command 0x433] ∧
      assemble (.command .ckfin none) = some [.command 0x500] ∧
      assemble (.cksumC [0x4A, 0x55]) =
        some [.command 0x200, .command 0x44A, .command 0x455, .command 0x500] := by decide
theorem test_response_text :
    respText ⟨.raised .eIllegal, 0x00⟩ = "E_ILLEGAL:0x00".toList ∧
      respText ⟨.ok, 0xBF⟩ = "OK:0xBF".toList := by decide

/-! ### Witnesses: for each statement with hypotheses, values that meet them, clause by clause -/

theorem witness_PidValuesAreDistinctAndRecognisable :
    (pidFromId 0x3F).toNat % 255 = (pidFromId 0x3F).toNat % 255 ∧ pidFromId (identOf 0xBF) = 0xBF := by
  decide
theorem witness_OneFoldPerByteIsEnough : (0xFF : Byte).toNat + (0x01 : Byte).toNat > 255 := by decide
/-- For ChecksumFollowsTheAlgorithm, CarryFoldingGivesTheSameChecksum, ExtremeChecksums and ClassicAndEnhancedDiffer. -/
theorem witness_payload_lengths :
    (1 ≤ [(0x00 : Byte)].length ∧ [(0x00 : Byte)].length ≤ 8) ∧
      (1 ≤ (List.replicate 8 (0xFF : Byte)).length ∧ (List.replicate 8 (0xFF : Byte)).length ≤ 8) := by
  decide
theorem witness_ChecksumFollowsTheAlgorithm_index : (7 : Nat) < (List.replicate 8 (0x33 : Byte)).length := by
  decide
/-- For ChecksumDomainAndRoundTrip, ChecksumClosedForm and ReceiverSumIsFF. -/
theorem witness_checksum_has_a_value :
    checksum 0x06 [0xF9] true = some 0x00 ∧ checksum 0x00 [0x00] false = some 0xFF ∧
      checksum 0x00 [] false = none ∧ checksum 0x00 (List.replicate 9 0x01) true = none := by decide
theorem witness_ChecksumIsOrderIndependent : [(0x01 : Byte), 0x02].Perm [0x02, 0x01] := by decide
theorem witness_CarryFoldingGivesTheSameChecksum_loop : ((511 : Nat) > 255) ∧ ¬ ((255 : Nat) > 255) := by
  decide
theorem witness_ExtremeChecksums :
    includedSum 0x00 [0xFF] false = 255 ∧ (∀ b ∈ [(0x00 : Byte)], b = 0x00) := by decide
theorem witness_PidCollisions :
    (0x00 : Byte) ≠ 0xFF ∧ (1 ≤ [(0x12 : Byte), 0x34].length ∧ [(0x12 : Byte), 0x34].length ≤ 8) ∧
      (∃ b ∈ [(0x12 : Byte), 0x34], b ≠ 0x00) ∧ (0x3E : Ident) ≠ 0x3F := by decide
theorem witness_DecodeAndEncodeAgree :
    decode 0x5FF = .ok (.ckfin 0xFF) ∧ encode (.ckfin 0xFF) = 0x5FF := ⟨rfl, rfl⟩
theorem witness_OpcodeMapSelectsTheCommand :
    (0x0FF#12 &&& 0xF00#12 = 0x000#12) ∧ (0x1FF#12 &&& 0xF00#12 = 0x100#12) ∧
      (0x200#12 &&& 0xF00#12 = 0x200#12) ∧ (0x3FF#12 &&& 0xF00#12 = 0x300#12) ∧
      (0x400#12 &&& 0xF00#12 = 0x400#12) ∧ (0x5FF#12 &&& 0xF00#12 = 0x500#12) ∧
      0x600 ≤ (0x600#12).toNat ∧ 0x600 ≤ (0xFFF#12).toNat := by decide
theorem witness_IgnoredArgumentsMakeNoDifference :
    (0x40 : Byte).extractLsb' 6 2 = (0x7F : Byte).extractLsb' 6 2 := by decide
theorem witness_AssemblerWords : (255 : Nat) < 256 ∧ (4095 : Nat) < 4096 := by decide
theorem witness_PseudoInstructionsExpandToTheChecksum :
    (1 ≤ [0x33].length ∧ [0x33].length ≤ 8 ∧ (∀ b ∈ [0x33], b < 256) ∧ (255 : Nat) < 256) ∧
      (List.replicate 8 0xFF).length = 8 ∧ ([] : List Nat).length = 0 ∧
      8 < (List.replicate 9 0xFF).length ∧ State.reset.err = 0#3 := by decide
/-- For StepRunsTheDecodedCommand, EveryWordHasOneNextStateAndOneResponse and ChecksAreMadeInOrder. -/
theorem witness_pending_word :
    (before 0x00 0 .idle 0 0x106).input = .command 0x106 :: [] ∧
      decode 0x106#12 = .ok (.pidgen 0x06) := ⟨rfl, rfl⟩
theorem witness_PlacedWordRunsNext : decodeTableWord 16 0x5FF = some (.ckfin 0xFF) := by decide
theorem witness_WaitingChangesNothing : State.reset.input = [] := by decide
/-- For NopAnswersAndWritesNothing. -/
theorem witness_both_error_cases :
    (idleState 0 0 .idle 0).err = 0#3 ∧ (idleState 0 0 .idle 4).err ≠ 0#3 := by decide
/-- For PidgenAnswersThePid: the two argument clauses at their boundary. -/
theorem witness_PidgenAnswersThePid :
    State.reset.err = 0#3 ∧ (0x3F : Byte).toNat ≤ 63 ∧ 63 < (0x40 : Byte).toNat := by decide
/-- For CkinitCStartsAtZero, CkinitEStartsAtThePid and HostCanCheckAPid: either phase. -/
theorem witness_unfaulted_in_both_phases :
    (idleState 0x9F 8 .idle 0).err = 0#3 ∧ (idleState 0x9F 8 .accum 0).err = 0#3 := by decide
/-- For CkaddFoldsAndCounts: each clause; counts 7, 8 and the last one below 15. -/
theorem witness_CkaddFoldsAndCounts :
    ((idleState 1 0 .idle 0).err = 0#3 ∧ (idleState 1 0 .idle 0).phase = .idle) ∧
      ((idleState 1 8 .accum 0).phase = .accum ∧ (idleState 1 8 .accum 0).cnt = 8#4) ∧
      ((idleState 1 7 .accum 0).phase = .accum ∧ (idleState 1 7 .accum 0).cnt ≠ 8#4) ∧
      (idleState 1 14 .accum 0).cnt.toNat < 15 := by decide
/-- For CkfinAnswersTheComplement and the last clause of SequenceFaults: counts 0 and 1. -/
theorem witness_CkfinAnswersTheComplement :
    ((idleState 1 0 .idle 0).err = 0#3 ∧ (idleState 1 0 .idle 0).phase = .idle) ∧
      ((idleState 1 0 .accum 0).phase = .accum ∧ (idleState 1 0 .accum 0).cnt = 0#4) ∧
      ((idleState 1 1 .accum 0).phase = .accum ∧ (idleState 1 1 .accum 0).cnt ≠ 0#4) := by decide
theorem witness_CommandFrame :
    exec (.ckadd 0x01) (idleState 0xFF 1 .accum 0) = .next (after 0x01 2 .accum 0 .ok 0x00) ∧
      exec (.ckadd 0x01) (idleState 0xFF 1 .accum 2) =
        .next (after 0xFF 1 .accum 2 .eFaulted 0x02) := ⟨rfl, rfl⟩
/-- For RepeatingACommand: each clause. -/
theorem witness_RepeatingACommand :
    (idleState 0 6 .accum 0).err = 0#3 ∧ neutral (.pidgen 0x3F) = true ∧ neutral (.nop 0xFF) = true ∧
      (idleState 0 6 .accum 0).phase = .accum ∧ (idleState 0 6 .accum 0).cnt.toNat < 7 ∧
      (idleState 0 6 .accum 0).cnt ≠ 0#4 := by decide
/-- For FaultedBlockOnlyAnswers and the second clause of FaultEntry. -/
theorem witness_FaultedBlockOnlyAnswers :
    (before 0 0 .idle 4 0xFFF).input = .command 0xFFF :: [] ∧ (before 0 0 .idle 4 0xFFF).err ≠ 0#3 ∧
      Inv (before 0 0 .idle 4 0xFFF) := by decide
theorem witness_ReservedOpcodeIsIllegal :
    (before 0 0 .idle 0 0x600).input = .command 0x600 :: [] ∧ (before 0 0 .idle 0 0x600).err = 0#3 ∧
      0x6 ≤ (0x600#12).toNat / 256 := by decide
/-- For FaultCauses: an unfaulted state with a word pending, and one word and state for each code. -/
theorem witness_FaultCauses :
    ((before 0 8 .accum 0 0x400).input = .command 0x400 :: [] ∧ (before 0 8 .accum 0 0x400).err = 0#3) ∧
      ((0x140#12).toNat / 256 = 1 ∧ 63 < (0x140#12).toNat % 256) ∧
      ((0x400#12).toNat / 256 = 4 ∧ (before 0 8 .accum 0 0x400).cnt = 8#4) ∧
      ((0x500#12).toNat / 256 = 5 ∧ (before 0 0 .accum 0 0x500).cnt = 0#4) ∧
      6 ≤ (0x600#12).toNat / 256 := by decide
theorem witness_FaultsArePrecise :
    ({ idleState 0 0 .idle 0 with input := [.command 0x140, .command 0x100, .reset] } : State).input =
      .command 0x140 :: ([0x100].map HostMove.command ++ [.reset]) ∧
      step { idleState 0 0 .idle 0 with input := [.command 0x140, .command 0x100, .reset] } =
        .next ⟨0, 0, .idle, 1, [.command 0x100, .reset], [⟨.raised .eRange, 0⟩]⟩ ∧ (1#3 : Code) ≠ 0#3 :=
  ⟨rfl, rfl, by decide⟩
theorem witness_OnlyResetLeavesTheFaultedState :
    ({ idleState 0xFF 8 .accum 2 with input := [.reset] } : State).err ≠ 0#3 := by decide
theorem witness_LengthFaults :
    State.reset.err = 0#3 ∧
      ({ State.reset with input := sendAll [.ckinitE 0xC1, .ckfin 0] } : State).input =
        sendAll [ckinitOf 0xC1 true, .ckfin 0] ++ [] ∧
      (List.replicate 8 (0xFF : Byte)).length = 8 ∧
      ({ State.reset with
          input := sendAll (.ckinitC 0 :: (List.replicate 10 0xFF).map Instr.ckadd) } : State).input =
        sendAll (ckinitOf 0 false :: (List.replicate 8 0xFF ++ 0xFF :: [0xFF]).map Instr.ckadd) ++ [] := by
  decide
theorem witness_SequenceFaults :
    (Instr.ckadd 0x01 = .ckadd 0x01 ∨ Instr.ckadd 0x01 = .ckfin 0x01) ∧ State.reset.err = 0#3 ∧
      State.reset.phase = .idle ∧ (idleState 0x9F 8 .idle 0).phase = .idle := by decide
theorem witness_ResetEventMakesTheResetState :
    ({ idleState 0xFF 8 .accum 2 with input := [.reset, .command 0] } : State).input =
      .reset :: [.command 0] := by decide
/-- For EveryStepKeepsTheBounds: the eighth `CKADD`, after which `CNT` is at its bound. -/
theorem witness_EveryStepKeepsTheBounds :
    Inv (before 0x6C 7 .accum 0 0x433) ∧
      step (before 0x6C 7 .accum 0 0x433) = .next (after 0x9F 8 .accum 0 .ok 0x00) :=
  ⟨by decide, rfl⟩
theorem witness_EveryStepTracksTheSum :
    TracksSum (before 0x39 1 .accum 0 0x433) (some ⟨0x06, [0x33]⟩) ∧
      step (before 0x39 1 .accum 0 0x433) = .next (after 0x6C 2 .accum 0 .ok 0x00) :=
  ⟨fun _ _ => ⟨⟨0x06, [0x33]⟩, rfl, by decide, by decide, by decide⟩, rfl⟩
/-- For CkaddsAccumulateThePayload: 95_test_vectors.md P7, with a `NOP` and a `PIDGEN` between. -/
theorem witness_CkaddsAccumulateThePayload :
    State.reset.err = 0#3 ∧ [(0x00 : Byte)].length ≤ 8 ∧
      ([.ckinitE 0x80, .nop 0, .pidgen 0x02, .ckadd 0x00] : List Instr).filter (fun i => !neutral i) =
        ckinitOf 0x80 true :: [0x00].map Instr.ckadd ∧
      ({ State.reset with
          input := sendAll [.ckinitE 0x80, .nop 0, .pidgen 0x02, .ckadd 0x00] } : State).input =
        sendAll [.ckinitE 0x80, .nop 0, .pidgen 0x02, .ckadd 0x00] ++ [] := by decide
theorem witness_CommandsComputeTheChecksum :
    State.reset.err = 0#3 ∧ 1 ≤ [(0x00 : Byte)].length ∧ [(0x00 : Byte)].length ≤ 8 ∧
      ([.ckinitE 0x80, .nop 0, .pidgen 0x02, .ckadd 0x00, .ckfin 0] : List Instr).filter
          (fun i => !neutral i) =
        ckinitOf 0x80 true :: ([0x00].map Instr.ckadd ++ [.ckfin 0]) ∧
      ({ State.reset with
          input := sendAll [.ckinitE 0x80, .nop 0, .pidgen 0x02, .ckadd 0x00, .ckfin 0] } : State).input =
        sendAll [.ckinitE 0x80, .nop 0, .pidgen 0x02, .ckadd 0x00, .ckfin 0] ++ [] := by decide
/-- For HiddenStateIsUnobservable: two different states with the same view. -/
theorem witness_HiddenStateIsUnobservable :
    SameView (before 0x9F 8 .idle 0 0x200) (before 0x00 0 .idle 0 0x200) ∧
      before 0x9F 8 .idle 0 0x200 ≠ before 0x00 0 .idle 0 0x200 := by
  refine ⟨⟨rfl, rfl, fun _ => ⟨rfl, fun h => ?_⟩⟩, by decide⟩
  cases h

end Sys2Proof.Tests
end

section
/-! PROOFS. 10_state.md: the reset values, and the step as a function of the block's state and the command word. -/

namespace Sys2Proof.Machine

/-- From the block state of `s`, `f` leads to one block state and adds one response, whatever the host's two lists
hold (10_state.md R20). The lists of `s` itself play no part. -/
def AnswersOnce (s : State) (f : State → State) : Prop :=
  ∃ (t : State) (r : Resp), ∀ (rest : List HostMove) (rs : List Resp),
    f { s with input := rest, responses := rs } = { t with input := rest, responses := rs ++ [r] }

namespace AnswersOnce

variable (s : State)

theorem respond_self (st : Status) (v : Byte) : AnswersOnce s (respond st v) :=
  ⟨s, ⟨st, v⟩, fun _ _ => rfl⟩

theorem raiseFault_self (k : FaultKind) : AnswersOnce s (raiseFault k) :=
  ⟨{ s with err := faultCode k }, ⟨.raised k, 0x00#8⟩, fun _ _ => rfl⟩

theorem answerFaulted_self : AnswersOnce s answerFaulted :=
  ⟨s, ⟨.eFaulted, errValue s⟩, fun _ _ => rfl⟩

theorem respond_startSum (st : Status) (v start : Byte) :
    AnswersOnce s (fun u => respond st v (startSum start u)) :=
  ⟨startSum start s, ⟨st, v⟩, fun _ _ => rfl⟩

theorem respond_addByte (st : Status) (v b : Byte) :
    AnswersOnce s (fun u => respond st v (addByte b u)) :=
  ⟨addByte b s, ⟨st, v⟩, fun _ _ => rfl⟩

theorem endSum_respond_complement (st : Status) :
    AnswersOnce s (fun u => endSum (respond st (complement u.acc) u)) :=
  ⟨endSum s, ⟨st, complement s.acc⟩, fun _ _ => rfl⟩

variable {s}

/-- A check keeps the property when its outcome does not depend on the host's two lists. -/
theorem ite {c : State → Prop} [DecidablePred c] {f g : State → State}
    (hc : ∀ rest rs, c { s with input := rest, responses := rs } ↔ c s)
    (hf : AnswersOnce s f) (hg : AnswersOnce s g) :
    AnswersOnce s (fun u => if c u then f u else g u) := by
  by_cases h : c s
  · obtain ⟨t, r, hf⟩ := hf
    exact ⟨t, r, fun rest rs => (if_pos ((hc rest rs).2 h)).trans (hf rest rs)⟩
  · obtain ⟨t, r, hg⟩ := hg
    exact ⟨t, r, fun rest rs => (if_neg (mt (hc rest rs).1 h)).trans (hg rest rs)⟩

/-- The first check of every command reads `ERR` alone. -/
theorem unlessFaulted {body : State → State} (h : AnswersOnce s body) :
    AnswersOnce s (unlessFaulted body) :=
  ite (c := fun u => faulted u = true) (fun _ _ => Iff.rfl) (answerFaulted_self s) h

/-- The checks of `CKADD` and `CKFIN`: `PHASE` first, then a count that is no legal length (60_exceptions.md R127). -/
theorem sumChecks {body : State → State} (n : Count) (h : AnswersOnce s body) :
    AnswersOnce s (fun u =>
      if u.phase = .idle then raiseFault .eSeq u
      else if u.cnt = n then raiseFault .eLen u
      else body u) :=
  ite (fun _ _ => Iff.rfl) (raiseFault_self s .eSeq)
    (ite (fun _ _ => Iff.rfl) (raiseFault_self s .eLen) h)

end AnswersOnce

/-- The meaning of every command is a state function that answers once. -/
theorem exec_answersOnce (i : Instr) (s : State) :
    ∃ f : State → State, (∀ u, exec i u = .next (f u)) ∧ AnswersOnce s f := by
  cases i with
  | nop arg => exact ⟨_, fun _ => rfl, (AnswersOnce.respond_self s _ _).unlessFaulted⟩
  | pidgen arg =>
    refine ⟨_, fun _ => rfl, AnswersOnce.unlessFaulted ?_⟩
    split
    · exact AnswersOnce.respond_self s _ _
    · exact AnswersOnce.raiseFault_self s _
  | ckinitC arg => exact ⟨_, fun _ => rfl, (AnswersOnce.respond_startSum s _ _ _).unlessFaulted⟩
  | ckinitE pid => exact ⟨_, fun _ => rfl, (AnswersOnce.respond_startSum s _ _ _).unlessFaulted⟩
  | ckadd b =>
    exact ⟨_, fun _ => rfl, ((AnswersOnce.respond_addByte s _ _ _).sumChecks _).unlessFaulted⟩
  | ckfin arg =>
    exact ⟨_, fun _ => rfl, ((AnswersOnce.endSum_respond_complement s _).sumChecks _).unlessFaulted⟩

/-- So does every command word: it runs its command, or a reserved one raises `E_ILLEGAL`. -/
theorem runCommand_answersOnce (w : CmdWord) (s : State) :
    ∃ f : State → State, (∀ u, runCommand w u = .next (f u)) ∧ AnswersOnce s f := by
  cases hd : decode w with
  | ok i =>
    obtain ⟨f, hexec, hf⟩ := exec_answersOnce i s
    exact ⟨f, fun u => (runCommand_of_decode w u i hd).trans (hexec u), hf⟩
  | error r =>
    exact ⟨illegalCommand, fun u => runCommand_of_reserved w u r hd,
      (AnswersOnce.raiseFault_self s .eIllegal).unlessFaulted⟩

/-- Settles O29: the word's state function answers once, and a pending word is run on the state with the move taken. -/
theorem everyWordHasOneNextStateAndOneResponse :
    Obligations.EveryWordHasOneNextStateAndOneResponse := by
  intro acc cnt phase err w
  obtain ⟨f, hrun, t, r, hf⟩ := runCommand_answersOnce w ⟨acc, cnt, phase, err, [], []⟩
  refine ⟨t.acc, t.cnt, t.phase, t.err, r, fun rest rs => ?_⟩
  calc step ⟨acc, cnt, phase, err, .command w :: rest, rs⟩
      = runCommand w ⟨acc, cnt, phase, err, rest, rs⟩ :=
        step_of_cons ⟨acc, cnt, phase, err, .command w :: rest, rs⟩ (.command w) rest rfl
    _ = .next (f ⟨acc, cnt, phase, err, rest, rs⟩) := hrun _
    _ = .next ⟨t.acc, t.cnt, t.phase, t.err, rest, rs ++ [r]⟩ :=
      congrArg Host.Outcome.next (hf rest rs)

/-- Settles O49: the four fields of the reset state, read off its definition (10_state.md R22). -/
theorem resetValues : Obligations.ResetValues := ⟨rfl, rfl, rfl, rfl⟩

end Sys2Proof.Machine
end

section
/-! PROOFS. 20_memory.md R39: what each command writes on an unfaulted block, and what sending it twice does. -/

namespace Sys2Proof.Machine

/-- The answer of a neutral command is the same in every unfaulted state, and nothing is written. -/
theorem exec_neutral (i : Instr) (h : neutral i = true) :
    ∃ v : Byte, ∀ s : State, s.err = 0#3 → exec i s = .next (respond .ok v s) := by
  cases i with
  | nop arg =>
    exact ⟨0x00#8, fun s hs => congrArg Host.Outcome.next (unlessFaulted_of_err_zero _ s hs)⟩
  | pidgen arg =>
    have hr : identInRange arg = true := (identInRange_iff arg).2 (of_decide_eq_true h)
    refine ⟨pidFromId (identOf arg), fun s hs => congrArg Host.Outcome.next ?_⟩
    rw [unlessFaulted_of_err_zero _ s hs, if_pos hr]
  | ckinitC arg => cases h
  | ckinitE pid => cases h
  | ckadd b => cases h
  | ckfin arg => cases h

/-- Both `CKINIT`s begin at the start value of their variant (41_checksum.md R94, R95). -/
theorem exec_ckinitOf (pid : Byte) (enhanced : Bool) (s : State) (h : s.err = 0#3) :
    exec (ckinitOf pid enhanced) s =
      .next (respond .ok 0x00#8 (startSum (accStart pid enhanced) s)) := by
  cases enhanced with
  | false => exact congrArg Host.Outcome.next (unlessFaulted_of_err_zero _ s h)
  | true => exact congrArg Host.Outcome.next (unlessFaulted_of_err_zero _ s h)

theorem exec_ckadd_of_room (b : Byte) (s : State) (h : s.err = 0#3) (hp : s.phase = .accum)
    (hc : s.cnt ≠ 8#4) : exec (.ckadd b) s = .next (respond .ok 0x00#8 (addByte b s)) := by
  obtain ⟨hidle, -⟩ | ⟨-, hfull, -⟩ | ⟨-, -, hadd⟩ := execCkadd_cases b s h
  · cases hp.symm.trans hidle
  · exact absurd hfull hc
  · exact hadd

theorem exec_ckfin_of_counted (arg : Byte) (s : State) (h : s.err = 0#3) (hp : s.phase = .accum)
    (hc : s.cnt ≠ 0#4) :
    exec (.ckfin arg) s = .next (endSum (respond .ok (complement s.acc) s)) := by
  obtain ⟨hidle, -⟩ | ⟨-, hnone, -⟩ | ⟨-, -, hfin⟩ := execCkfin_cases arg s h
  · cases hp.symm.trans hidle
  · exact absurd hnone hc
  · exact hfin

theorem exec_ckfin_of_idle (arg : Byte) (s : State) (h : s.err = 0#3) (hp : s.phase = .idle) :
    exec (.ckfin arg) s = .next (raiseFault .eSeq s) := by
  obtain ⟨-, hseq⟩ | ⟨haccum, -⟩ | ⟨haccum, -⟩ := execCkfin_cases arg s h
  · exact hseq
  · cases hp.symm.trans haccum
  · cases hp.symm.trans haccum

theorem cnt_ne_eight_of_lt (c : Count) (h : c.toNat < 8) : c ≠ 8#4 := by
  rintro rfl
  exact absurd h (by decide)

/-- Two `CKADD`s of one byte with room for both: the second finds the count below 8 as well. -/
theorem exec_ckadd_twice (b : Byte) (s : State) (h : s.err = 0#3) (hp : s.phase = .accum)
    (hc : s.cnt.toNat < 7) :
    exec (.ckadd b) s = .next (respond .ok 0x00#8 (addByte b s)) ∧
      exec (.ckadd b) (respond .ok 0x00#8 (addByte b s)) =
        .next (respond .ok 0x00#8 (addByte b (respond .ok 0x00#8 (addByte b s)))) ∧
      (cntSucc s.cnt).toNat = s.cnt.toNat + 1 ∧
      (cntSucc (cntSucc s.cnt)).toNat = s.cnt.toNat + 2 := by
  have hone : (cntSucc s.cnt).toNat = s.cnt.toNat + 1 := cntSucc_toNat s.cnt (by omega)
  have htwo : (cntSucc (cntSucc s.cnt)).toNat = (cntSucc s.cnt).toNat + 1 :=
    cntSucc_toNat _ (by omega)
  exact ⟨exec_ckadd_of_room b s h hp (cnt_ne_eight_of_lt _ (by omega)),
    exec_ckadd_of_room b _ h hp (cnt_ne_eight_of_lt (cntSucc s.cnt) (by omega)),
    hone, by omega⟩

/-- Settles O38: each row of R39's table, by what its command does in the first state and in the one it leaves. -/
theorem repeatingACommand : Obligations.RepeatingACommand := by
  intro s h
  refine ⟨fun i hi => ?neutral, fun pid enhanced => ?ckinit, fun b hp hc => ?ckadd,
    fun a hp hc => ?ckfin⟩
  case neutral =>
    obtain ⟨v, hexec⟩ := exec_neutral i hi
    exact ⟨_, _, ⟨.ok, v⟩, hexec s h, hexec (respond .ok v s) h,
      ⟨rfl, rfl, rfl, rfl⟩, ⟨rfl, rfl, rfl, rfl⟩, rfl, rfl⟩
  case ckinit =>
    exact ⟨_, _, exec_ckinitOf pid enhanced s h, exec_ckinitOf pid enhanced _ h, rfl,
      ⟨rfl, rfl, rfl, rfl⟩⟩
  case ckadd =>
    obtain ⟨hfirst, hsecond, hone, htwo⟩ := exec_ckadd_twice b s h hp hc
    exact ⟨_, _, hfirst, hsecond, rfl, rfl, rfl, rfl, rfl, rfl, hone, htwo⟩
  case ckfin =>
    exact ⟨_, _, exec_ckfin_of_counted a s h hp hc, exec_ckfin_of_idle a _ h rfl,
      rfl, rfl, rfl, rfl, rfl, rfl⟩

end Sys2Proof.Machine
end

section
/-! PROOFS. 30_encoding.md: the word of each command, the lines of the assembler (R48, R49), the written response, and
the arguments no command reads (R46). -/

namespace Sys2Proof.Machine

/-! ### Words -/

/-- The decoder reads back every command the encoder writes (30_encoding.md R42, R47). -/
theorem decode_encode (i : Instr) : decode (encode i) = .ok i := by
  have hop : opField (encode i) = opcodeOf i := (Laws.EncodedForm.fields_of_append _ _).1
  have harg : argField (encode i) = operandOf i := (Laws.EncodedForm.fields_of_append _ _).2
  cases i <;> simp [decode, hop, harg, opcodeOf, operandOf]

/-- The word of a command whose operand is a written number: the opcode times 256, plus the number (30_encoding.md R40). -/
theorem encode_of_fields (i : Instr) (op : Opcode) (n : Nat) (hn : n < 256)
    (hop : opcodeOf i = op) (harg : operandOf i = BitVec.ofNat 8 n) :
    encode i = BitVec.ofNat 12 (op.toNat * 256 + n) := by
  have hoperand : (operandOf i).toNat = n := by
    rw [harg, BitVec.toNat_ofNat, Nat.mod_eq_of_lt hn]
  have hword : (encode i).toNat = op.toNat * 256 + n := by
    rw [encode, Laws.EncodedForm.toNat_append, hop, hoperand]
  rw [← hword, BitVec.ofNat_toNat, BitVec.setWidth_eq]

theorem encode_ckadd_ofNat (b : Nat) (hb : b < 256) :
    encode (.ckadd (BitVec.ofNat 8 b)) = BitVec.ofNat 12 (0x400 + b) :=
  encode_of_fields _ 0x4#4 b hb rfl rfl

theorem encode_ckinitE_ofNat (pid : Nat) (hp : pid < 256) :
    encode (.ckinitE (BitVec.ofNat 8 pid)) = BitVec.ofNat 12 (0x300 + pid) :=
  encode_of_fields _ 0x3#4 pid hp rfl rfl

theorem operandOf_instrOf (m : Mnemonic) (operand : Byte) :
    operandOf (instrOf m operand) = operand := by
  cases m <;> rfl

theorem sendAll_append (is js : List Instr) : sendAll (is ++ js) = sendAll is ++ sendAll js :=
  List.map_append

/-- The words of the `CKADD`s of a written payload, in order (30_encoding.md R49). -/
theorem sendAll_ckadds (payload : List Nat) (hb : ∀ b ∈ payload, b < 256) :
    sendAll ((bytesOf payload).map Instr.ckadd) =
      payload.map (fun b => .command (BitVec.ofNat 12 (0x400 + b))) := by
  simp only [sendAll, bytesOf, List.map_map]
  exact List.map_congr_left fun b hmem => congrArg HostMove.command (encode_ckadd_ofNat b (hb b hmem))

/-- The words a pseudo-instruction of either variant expands to (30_encoding.md R49). -/
theorem sendAll_cksumInstrs (pid : Byte) (payload : List Nat) (enhanced : Bool)
    (hb : ∀ b ∈ payload, b < 256) :
    sendAll (cksumInstrs pid (bytesOf payload) enhanced) =
      .command (encode (ckinitOf pid enhanced)) ::
        (payload.map (fun b => .command (BitVec.ofNat 12 (0x400 + b))) ++ [.command 0x500#12]) := by
  rw [cksumInstrs, sendAll_cons, sendAll_append, sendAll_ckadds payload hb]
  rfl

theorem length_sendAll_cksumInstrs (pid : Byte) (payload : List Byte) (enhanced : Bool) :
    (sendAll (cksumInstrs pid payload enhanced)).length = payload.length + 2 := by
  simp [sendAll, cksumInstrs]

/-! ### The lines of the assembler -/

theorem payloadFits_iff (payload : List Nat) :
    payloadFits payload = true ↔
      (1 ≤ payload.length ∧ payload.length ≤ 8) ∧ ∀ b ∈ payload, b < 256 := by
  simp [payloadFits, operandFits]

theorem assemble_command (m : Mnemonic) (n : Nat) (hn : n < 256) :
    assemble (.command m (some n)) = some [.command (encode (instrOf m (BitVec.ofNat 8 n)))] :=
  if_pos (decide_eq_true hn)

theorem assemble_word (w : Nat) (hw : w < 4096) :
    assemble (.word w) = some [.command (BitVec.ofNat 12 w)] :=
  if_pos (decide_eq_true hw)

theorem assemble_cksumC (payload : List Nat) (h : payloadFits payload = true) :
    assemble (.cksumC payload) = some (sendAll (cksumInstrs 0x00#8 (bytesOf payload) false)) :=
  if_pos h

theorem assemble_cksumE (pid : Nat) (payload : List Nat) (hp : pid < 256)
    (h : payloadFits payload = true) :
    assemble (.cksumE pid payload) =
      some (sendAll (cksumInstrs (BitVec.ofNat 8 pid) (bytesOf payload) true)) :=
  if_pos (Bool.and_eq_true_iff.2 ⟨decide_eq_true hp, h⟩)

/-- A payload the spec excludes is refused in both variants, whatever the PID. -/
theorem assemble_cksum_of_not_payloadFits (pid : Nat) (payload : List Nat)
    (h : ¬ payloadFits payload = true) :
    assemble (.cksumC payload) = none ∧ assemble (.cksumE pid payload) = none :=
  ⟨if_neg h, if_neg fun hline => h (Bool.and_eq_true_iff.1 hline).2⟩

/-! ### Running an expansion -/

/-- The step when the host's next move is an encoded command. -/
theorem step_of_encoded (i : Instr) (s : State) (rest : List HostMove)
    (h : s.input = .command (encode i) :: rest) : step s = exec i { s with input := rest } :=
  (step_of_cons s _ rest h).trans (runCommand_of_decode _ _ i (decode_encode i))

/-- `CKADD`s with room for all of them: each answers `OK:0x00`, `ACC` folds them in and `CNT` counts them. -/
theorem runSteps_ckadds (bs : List Byte) (rest : List HostMove) (s : State) (he : s.err = 0#3)
    (hp : s.phase = .accum) (hroom : s.cnt.toNat + bs.length ≤ 8)
    (hin : s.input = sendAll (bs.map Instr.ckadd) ++ rest) :
    ∃ t, runSteps bs.length s = .next t ∧ t.input = rest ∧ t.err = 0#3 ∧ t.phase = .accum ∧
      t.acc = accAfter s.acc bs ∧ t.cnt.toNat = s.cnt.toNat + bs.length ∧
      t.responses = s.responses ++ List.replicate bs.length ⟨.ok, 0x00#8⟩ := by
  induction bs generalizing s with
  | nil => exact ⟨s, rfl, hin, he, hp, rfl, rfl, (List.append_nil _).symm⟩
  | cons b bs ih =>
    rw [List.length_cons] at hroom
    have hstep := (step_of_encoded (.ckadd b) s _ hin).trans
      (exec_ckadd_of_room b _ he hp (cnt_ne_eight_of_lt s.cnt (by omega)))
    have hcnt : (cntSucc s.cnt).toNat = s.cnt.toNat + 1 := cntSucc_toNat s.cnt (by omega)
    have hroom' : (cntSucc s.cnt).toNat + bs.length ≤ 8 := by omega
    obtain ⟨t, hrun, htin, hte, htp, hacc, htcnt, hresp⟩ :=
      ih (respond .ok 0x00#8 (addByte b { s with input := sendAll (bs.map Instr.ckadd) ++ rest }))
        he hp hroom' rfl
    refine ⟨t, (runSteps_succ _ _ _ hstep).trans hrun, htin, hte, htp, hacc, ?_, ?_⟩
    · calc t.cnt.toNat = (cntSucc s.cnt).toNat + bs.length := htcnt
        _ = s.cnt.toNat + (bs.length + 1) := by omega
    · simpa [List.replicate_succ] using hresp

/-- An expansion run from an unfaulted state ends with the complement of the folded sum (41_checksum.md R98). -/
theorem runSteps_cksumInstrs (pid : Byte) (payload : List Byte) (enhanced : Bool) (s : State)
    (he : s.err = 0#3) (hlen : 1 ≤ payload.length ∧ payload.length ≤ 8)
    (hin : s.input = sendAll (cksumInstrs pid payload enhanced)) :
    ∃ t, runSteps s.input.length s = .next t ∧
      t.responses.getLast? =
        some ⟨.ok, complement (accAfter (accStart pid enhanced) payload)⟩ := by
  have hcount : s.input.length = payload.length + 2 := by
    rw [hin, length_sendAll_cksumInstrs]
  rw [cksumInstrs, sendAll_cons, sendAll_append] at hin
  have hinit := (step_of_encoded _ s _ hin).trans (exec_ckinitOf pid enhanced _ he)
  obtain ⟨t, hadds, htin, hte, htp, hacc, hcnt, -⟩ :=
    runSteps_ckadds payload (sendAll [.ckfin 0x00#8])
      (respond .ok 0x00#8 (startSum (accStart pid enhanced)
        { s with input := sendAll (payload.map Instr.ckadd) ++ sendAll [.ckfin 0x00#8] }))
      he rfl ((Nat.zero_add _).trans_le hlen.2) rfl
  have hcounted : t.cnt ≠ 0#4 := by
    intro h0
    rw [h0, respond_cnt, startSum_cnt, BitVec.toNat_ofNat] at hcnt
    omega
  have hfin := (step_of_encoded _ t _ htin).trans
    (exec_ckfin_of_counted 0x00#8 { t with input := [] } hte htp hcounted)
  have hrun := calc runSteps s.input.length s
      _ = runSteps (payload.length + 2) s := by rw [hcount]
      _ = _ := runSteps_succ (payload.length + 1) s _ hinit
      _ = runSteps 1 t := runSteps_add _ 1 _ _ hadds
      _ = _ := runSteps_succ 0 t _ hfin
  exact ⟨_, hrun, by simp [hacc]⟩

theorem checksum_of_length (pid : Byte) (payload : List Byte) (enhanced : Bool)
    (h : 1 ≤ payload.length ∧ payload.length ≤ 8) :
    checksum pid payload enhanced =
      some (complement (accAfter (accStart pid enhanced) payload)) :=
  if_pos ((lengthInDomain_iff _).2 h)

/-- Settles O26: either expansion is a run of `runSteps_cksumInstrs`, and its value is the checksum by
definition; a payload of another length does not fit. -/
theorem pseudoInstructionsExpandToTheChecksum :
    Obligations.PseudoInstructionsExpandToTheChecksum := by
  refine ⟨fun pid payload s hmin hmax hb hpid he => ?expand, fun pid payload hlen => ?refuse⟩
  case expand =>
    have hfits : payloadFits payload = true := (payloadFits_iff payload).2 ⟨⟨hmin, hmax⟩, hb⟩
    have hbytes : (bytesOf payload).length = payload.length := List.length_map _
    have hdomain : 1 ≤ (bytesOf payload).length ∧ (bytesOf payload).length ≤ 8 := by omega
    have hcount (p : Byte) (enhanced : Bool) :
        (sendAll (cksumInstrs p (bytesOf payload) enhanced)).length = payload.length + 2 := by
      rw [length_sendAll_cksumInstrs, hbytes]
    constructor
    · obtain ⟨t, hsteps, hlast⟩ := runSteps_cksumInstrs 0x00#8 (bytesOf payload) false
        { s with input := sendAll (cksumInstrs 0x00#8 (bytesOf payload) false) } he hdomain rfl
      exact ⟨_, t, _, assemble_cksumC payload hfits, sendAll_cksumInstrs _ payload _ hb,
        hcount _ _, hsteps, hlast, fun any => checksum_of_length any _ false hdomain⟩
    · obtain ⟨t, hsteps, hlast⟩ := runSteps_cksumInstrs (BitVec.ofNat 8 pid) (bytesOf payload) true
        { s with input := sendAll (cksumInstrs (BitVec.ofNat 8 pid) (bytesOf payload) true) }
        he hdomain rfl
      refine ⟨_, t, _, assemble_cksumE pid payload hpid hfits, ?_, hcount _ _, hsteps, hlast,
        checksum_of_length _ _ true hdomain⟩
      rw [← encode_ckinitE_ofNat pid hpid]
      exact sendAll_cksumInstrs _ payload true hb
  case refuse =>
    refine assemble_cksum_of_not_payloadFits pid payload fun hfits => ?_
    obtain ⟨hlength, -⟩ := (payloadFits_iff payload).1 hfits
    omega

/-! ### The arguments no command reads -/

/-- Two commands that leave the same `ERR` on an unfaulted block leave the same `ERR` on every block. -/
theorem unlessFaulted_err_congr (f g : State → State) (s : State) (h : (f s).err = (g s).err) :
    (unlessFaulted f s).err = (unlessFaulted g s).err := by
  obtain ⟨he, hf⟩ | ⟨he, hf⟩ := unlessFaulted_cases f s
  · rw [hf, unlessFaulted_of_err_ne g s he]
  · rw [hf, unlessFaulted_of_err_zero g s he, h]

/-- The range check reads the two high bits alone (30_encoding.md R43). -/
theorem identInRange_iff_high_bits (arg : Byte) :
    identInRange arg = true ↔ arg.extractLsb' 6 2 = 0#2 := by
  have hlt := arg.isLt
  rw [identInRange_iff, ← BitVec.toNat_inj]
  simp only [BitVec.extractLsb'_toNat, Nat.shiftRight_eq_div_pow, BitVec.toNat_ofNat]
  omega

/-- Settles O24: three meanings do not mention their argument; of the others only `PIDGEN`'s check reads it. -/
theorem ignoredArgumentsMakeNoDifference : Obligations.IgnoredArgumentsMakeNoDifference := by
  refine ⟨fun s a b => ⟨rfl, rfl, rfl⟩, fun s a b => ?ckinitE, fun s a b => ?ckadd,
    fun s a b hhigh => ?pidgen, decode_encode (.nop 0x00#8)⟩
  case ckinitE => exact ⟨_, _, rfl, rfl, unlessFaulted_err_congr _ _ s rfl⟩
  case ckadd =>
    refine ⟨_, _, rfl, rfl, unlessFaulted_err_congr _ _ s ?_⟩
    split
    · rfl
    · split <;> rfl
  case pidgen =>
    have hrange : identInRange a = identInRange b := by
      rw [Bool.eq_iff_iff, identInRange_iff_high_bits, identInRange_iff_high_bits, hhigh]
    refine ⟨_, _, rfl, rfl, unlessFaulted_err_congr _ _ s ?_⟩
    rw [hrange]
    split <;> rfl

/-! ### The written response -/

theorem getElem?_hexDigits (n : Nat) (hn : n < 16) :
    "0123456789ABCDEF".toList[n]? = some (hexDigit n) := by
  revert n
  decide

theorem respText_eq (st : Status) (v : Byte) :
    respText ⟨st, v⟩ =
      statusName st ++ ":0x".toList ++ [hexDigit (v.toNat / 16), hexDigit (v.toNat % 16)] :=
  (List.append_assoc _ [':', '0', 'x'] _).symm

/-- Settles O25: each mnemonic's word by the opcode of its command, and the text of a response by its two digits. -/
theorem assemblerWords : Obligations.AssemblerWords := by
  refine ⟨fun n hn => ?words, fun m => rfl, assemble_word, rfl, fun st v => ?text, ?ok, ?len⟩
  case words =>
    have hword (m : Mnemonic) (op : Opcode) (hop : opcodeOf (instrOf m (BitVec.ofNat 8 n)) = op) :
        assemble (.command m (some n)) = some [.command (BitVec.ofNat 12 (op.toNat * 256 + n))] := by
      rw [assemble_command m n hn, encode_of_fields _ op n hn hop (operandOf_instrOf m _)]
    exact ⟨hword .nop 0x0#4 rfl, hword .pidgen 0x1#4 rfl, hword .ckinitC 0x2#4 rfl,
      hword .ckinitE 0x3#4 rfl, hword .ckadd 0x4#4 rfl, hword .ckfin 0x5#4 rfl⟩
  case text =>
    have hv := v.isLt
    exact ⟨_, _, getElem?_hexDigits _ (by omega), getElem?_hexDigits _ (by omega), respText_eq st v⟩
  case ok => decide
  case len => decide

end Sys2Proof.Machine
end

section
/-! PROOFS. 40_pid.md: the parity bits as counts of ones (R61, R62), the fields of a PID (R60, R63, R64), the printed
table (R66), and `PIDGEN` (R67). -/

namespace Sys2Proof.Machine

/-! ### The parity bits -/

/-- Exclusive-or adds modulo 2. This is why a chain of them is the parity of a count of ones. -/
theorem toNat_xor_eq_add_mod_two (a b : Bool) : (a ^^ b).toNat = (a.toNat + b.toNat) % 2 := by
  cases a <;> cases b <;> rfl

theorem toNat_not_eq_one_sub (a : Bool) : (!a).toNat = 1 - a.toNat := by
  cases a <;> rfl

/-- `p0` as a number: the count of ones among its four bits, modulo 2. -/
theorem parity0_toNat (id : Ident) :
    (parity0 id).toNat =
      ((id.getLsbD 0).toNat + (id.getLsbD 1).toNat + (id.getLsbD 2).toNat +
        (id.getLsbD 4).toNat) % 2 := by
  simp only [parity0, toNat_xor_eq_add_mod_two, Nat.mod_add_mod]

/-- `p1` as a number: what the count of ones among its four bits lacks to an odd one. -/
theorem parity1_toNat (id : Ident) :
    (parity1 id).toNat =
      1 - ((id.getLsbD 1).toNat + (id.getLsbD 3).toNat + (id.getLsbD 4).toNat +
        (id.getLsbD 5).toNat) % 2 := by
  simp only [parity1, toNat_not_eq_one_sub, toNat_xor_eq_add_mod_two, Nat.mod_add_mod]

/-- `p0` is linear: changing some bits of the identifier changes it by the parity of the change. -/
theorem parity0_xor (id change : Ident) :
    parity0 (id ^^^ change) = (parity0 id ^^ parity0 change) := by
  simp only [parity0, BitVec.getLsbD_xor, Bool.xor_assoc, Bool.xor_left_comm]

/-- `p1` is linear up to its inversion. -/
theorem parity1_xor (id change : Ident) :
    parity1 (id ^^^ change) = (parity1 id ^^ !parity1 change) := by
  simp only [parity1, BitVec.getLsbD_xor, Bool.not_not, Bool.not_xor, Bool.xor_not,
    Bool.xor_assoc, Bool.xor_left_comm]

/-- Settles O2: `p0` is a count modulo 2, and the identifiers with only bit 3 or only bit 5 set have `p0 = 0`. -/
theorem firstParityBitIsEvenParity : Obligations.FirstParityBitIsEvenParity := by
  refine ⟨fun id => ⟨rfl, ?even, ?odd, ?bit3, ?bit5⟩, rfl, rfl⟩
  case even =>
    rw [parity0_toNat]
    omega
  case odd => rw [← Bool.toNat_eq_one, parity0_toNat]
  case bit3 => exact (parity0_xor id _).trans (Bool.xor_false _)
  case bit5 => exact (parity0_xor id _).trans (Bool.xor_false _)

/-- Settles O3: `p1` completes a count to an odd one, and the identifiers with only bit 0 or only bit 2 set have the
`p1` of identifier 0. -/
theorem secondParityBitIsInvertedParity : Obligations.SecondParityBitIsInvertedParity := by
  refine ⟨fun id => ⟨rfl, ?odd, ?even, ?bit0, ?bit2⟩, rfl, rfl⟩
  case odd =>
    rw [parity1_toNat]
    omega
  case even =>
    rw [← Bool.toNat_eq_one, parity1_toNat]
    omega
  case bit0 => exact (parity1_xor id _).trans (Bool.xor_false _)
  case bit2 => exact (parity1_xor id _).trans (Bool.xor_false _)

/-! ### The fields of a PID -/

@[simp] theorem pidFromId_extractLsb'_low (id : Ident) : (pidFromId id).extractLsb' 0 6 = id :=
  BitVec.extractLsb'_append_eq_right

@[simp] theorem pidFromId_extractLsb'_high (id : Ident) :
    (pidFromId id).extractLsb' 6 2 =
      BitVec.ofBool (parity1 id) ++ BitVec.ofBool (parity0 id) :=
  BitVec.extractLsb'_append_eq_left

theorem pidFromId_getLsbD_of_lt (id : Ident) (i : Nat) (hi : i < 6) :
    (pidFromId id).getLsbD i = id.getLsbD i := by
  rw [pidFromId, BitVec.getLsbD_append, if_pos hi]

theorem pidFromId_getLsbD_six (id : Ident) : (pidFromId id).getLsbD 6 = parity0 id := by
  simp only [pidFromId, BitVec.getLsbD_append, BitVec.getLsbD_ofBool]
  simp

theorem pidFromId_getLsbD_seven (id : Ident) : (pidFromId id).getLsbD 7 = parity1 id := by
  simp only [pidFromId, BitVec.getLsbD_append, BitVec.getLsbD_ofBool]
  simp

/-- A byte is a PID when it has the identifier below and the two parity bits above. -/
theorem eq_pidFromId (v : Byte) (id : Ident) (hlow : ∀ i < 6, v.getLsbD i = id.getLsbD i)
    (hsix : v.getLsbD 6 = parity0 id) (hseven : v.getLsbD 7 = parity1 id) : v = pidFromId id := by
  apply BitVec.eq_of_getLsbD_eq
  intro i hi
  obtain hlt | rfl | rfl : i < 6 ∨ i = 6 ∨ i = 7 := by omega
  · rw [hlow i hlt, pidFromId_getLsbD_of_lt id i hlt]
  · rw [hsix, pidFromId_getLsbD_six]
  · rw [hseven, pidFromId_getLsbD_seven]

/-- Settles O1: the fields of the concatenation, and the bits of the or-form, which are the same. -/
theorem pidCombinesIdentifierAndParity : Obligations.PidCombinesIdentifierAndParity := by
  intro id
  refine ⟨pidFromId_extractLsb'_low id, pidFromId_getLsbD_six id, pidFromId_getLsbD_seven id,
    (eq_pidFromId _ id (fun i hi => ?low) ?six ?seven).symm⟩
  case low =>
    have h7 : i < 7 := by omega
    have h8 : i < 8 := by omega
    simp [hi, h7, h8]
  case six => simp
  case seven => simp

/-- Settles O4: the two high bits of a PID are `p0` and `p1`, which are the two formulas by definition. -/
theorem parityBitPlacement : Obligations.ParityBitPlacement :=
  ⟨fun id => ⟨pidFromId_getLsbD_six id, pidFromId_getLsbD_seven id⟩, rfl, rfl, rfl⟩

/-- Settles O5: the mask `0x3F` takes the remainder by 64, which is the field of the low six bits. -/
theorem pidKeepsIdentifierInLowBits : Obligations.PidKeepsIdentifierInLowBits := by
  intro id
  have hmod : (pidFromId id).toNat % 2 ^ 6 = id.toNat := by
    have hlow := congrArg BitVec.toNat (pidFromId_extractLsb'_low id)
    rwa [BitVec.extractLsb'_toNat, Nat.shiftRight_zero] at hlow
  apply BitVec.eq_of_toNat_eq
  calc (pidFromId id &&& 0x3F#8).toNat
      = (pidFromId id).toNat &&& (2 ^ 6 - 1) := BitVec.toNat_and _ _
    _ = id.toNat := by rw [Nat.and_two_pow_sub_one_eq_mod, hmod]
    _ = (id.setWidth 8).toNat := (BitVec.toNat_setWidth_of_le (by decide)).symm

/-! ### The printed table -/

/-- Each of the 64 printed entries is the formula's value: the table is data, compared entry by entry. -/
theorem getElem?_pidTable : ∀ id : Ident, pidTable[id.toNat]? = some (pidFromId id) := by
  decide

/-- Settles O6: the entry of an identifier is its PID, so its two high bits are the PID's. -/
theorem pidTableIsTheFormula : Obligations.PidTableIsTheFormula := by
  refine ⟨rfl, fun id => ⟨getElem?_pidTable id, ?_⟩⟩
  rw [getElem?_pidTable, Option.map_some, pidFromId_extractLsb'_high]

/-! ### `PIDGEN` -/

/-- The word of any command: its opcode times 256, plus its argument (30_encoding.md R40). -/
theorem encode_eq_add (i : Instr) (op : Opcode) (hop : opcodeOf i = op) :
    encode i = BitVec.ofNat 12 (op.toNat * 256) + (operandOf i).setWidth 12 := by
  rw [encode_of_fields i op (operandOf i).toNat (operandOf i).isLt hop (by simp),
    BitVec.ofNat_add, BitVec.ofNat_toNat]

theorem exec_pidgen_of_le (arg : Byte) (s : State) (h : s.err = 0#3) (ha : arg.toNat ≤ 63) :
    exec (.pidgen arg) s = .next (respond .ok (pidFromId (identOf arg)) s) := by
  have hrange : identInRange arg = true := (identInRange_iff arg).2 ha
  rw [exec, execPidgen, unlessFaulted_of_err_zero _ s h, if_pos hrange]

theorem exec_pidgen_of_gt (arg : Byte) (s : State) (h : s.err = 0#3) (ha : 63 < arg.toNat) :
    exec (.pidgen arg) s = .next (raiseFault .eRange s) := by
  have hrange : ¬ identInRange arg = true := mt (identInRange_iff arg).1 (by omega)
  rw [exec, execPidgen, unlessFaulted_of_err_zero _ s h, if_neg hrange]

/-- Settles O32: the word by its fields, and the two sides of the range check. -/
theorem pidgenAnswersThePid : Obligations.PidgenAnswersThePid := fun arg s h =>
  ⟨encode_eq_add (.pidgen arg) 0x1#4 rfl, exec_pidgen_of_le arg s h, exec_pidgen_of_gt arg s h⟩

end Sys2Proof.Machine
end

section
/-! PROOFS. 41_checksum.md: the end-around-carry sum (R81), the accumulator and its complement (R80, R86), and the four
checksum commands on an unfaulted block (R94 to R97). -/

namespace Sys2Proof.Machine

/-! ### The checksum function -/

theorem complement_eq_sub (acc : Byte) : complement acc = 255#8 - acc :=
  (BitVec.allOnes_sub_eq_not acc).symm

/-- `acc_(k+1) = eac_add(acc_k, b_(k+1))`: one more byte of the payload, one more fold (41_checksum.md R80). -/
theorem accAfter_take_succ (start : Byte) (payload : List Byte) (k : Nat) (h : k < payload.length) :
    accAfter start (payload.take (k + 1)) = eacAdd (accAfter start (payload.take k)) payload[k] := by
  rw [← List.take_concat_get' payload k h, accAfter_append, accAfter_cons, accAfter_nil]

/-- Settles O10: `acc_k` is the accumulator after the first `k` bytes, so `acc_n` is the one after them all. -/
theorem checksumFollowsTheAlgorithm : Obligations.ChecksumFollowsTheAlgorithm := by
  intro pid payload enhanced hmin hmax
  refine ⟨fun k => accAfter (accStart pid enhanced) (payload.take k), rfl,
    fun k hk => accAfter_take_succ _ payload k hk, ?_⟩
  simp only [checksum_of_length pid payload enhanced ⟨hmin, hmax⟩, complement_eq_sub, List.take_length]

/-- For a sum of two bytes bit 8 is the whole carry: it is set exactly above 255 (41_checksum.md R81). -/
theorem testBit_eight_iff (t : Nat) (h : t ≤ 510) : t.testBit 8 = true ↔ t > 255 := by
  rw [Nat.testBit_eq_decide_div_mod_eq, decide_eq_true_eq]
  omega

/-- Settles O8: the folded sum is `eacAdd_toNat`, and its test is the one bit of carry. -/
theorem endAroundCarryAddition : Obligations.EndAroundCarryAddition := by
  refine ⟨fun a b => ?_, by decide, by decide, by decide⟩
  have hsum : a.toNat + b.toNat ≤ 510 := by omega
  exact ⟨eacAdd_toNat a b, hsum, Iff.rfl, (testBit_eight_iff _ hsum).symm⟩

/-- Settles O12: the PID enters by the start value alone, which is 0 in the classic variant. -/
theorem classicChecksumIgnoresPid : Obligations.ClassicChecksumIgnoresPid := by
  intro p q payload
  have hstart : accStart p false = accStart q false := rfl
  rw [checksum, checksum, hstart]

/-! ### The commands -/

theorem exec_ckinitC (arg : Byte) (s : State) (h : s.err = 0#3) :
    exec (.ckinitC arg) s = .next (respond .ok 0x00#8 (startSum 0x00#8 s)) := by
  rw [exec, execCkinitC, unlessFaulted_of_err_zero _ s h]

theorem exec_ckinitE (pid : Byte) (s : State) (h : s.err = 0#3) :
    exec (.ckinitE pid) s = .next (respond .ok 0x00#8 (startSum pid s)) :=
  exec_ckinitOf pid true s h

/-- Settles O33: the phase is not looked at, so nothing of an abandoned checksum is left. -/
theorem ckinitCStartsAtZero : Obligations.CkinitCStartsAtZero := fun arg s h =>
  ⟨encode_eq_add (.ckinitC arg) 0x2#4 rfl, exec_ckinitC arg s h⟩

/-- Settles O34: with 0x00 both commands start at the same value, whatever `CKINIT.C`'s argument. -/
theorem ckinitEStartsAtThePid : Obligations.CkinitEStartsAtThePid := fun pid s h =>
  ⟨encode_eq_add (.ckinitE pid) 0x3#4 rfl, exec_ckinitE pid s h,
    fun any => (exec_ckinitE 0x00#8 s h).trans (exec_ckinitC any s h).symm⟩

theorem exec_ckadd_of_idle (b : Byte) (s : State) (h : s.err = 0#3) (hp : s.phase = .idle) :
    exec (.ckadd b) s = .next (raiseFault .eSeq s) := by
  obtain ⟨-, hseq⟩ | ⟨haccum, -⟩ | ⟨haccum, -⟩ := execCkadd_cases b s h
  · exact hseq
  · cases hp.symm.trans haccum
  · cases hp.symm.trans haccum

theorem exec_ckadd_of_full (b : Byte) (s : State) (h : s.err = 0#3) (hp : s.phase = .accum)
    (hc : s.cnt = 8#4) : exec (.ckadd b) s = .next (raiseFault .eLen s) := by
  obtain ⟨hidle, -⟩ | ⟨-, -, hlen⟩ | ⟨-, hroom, -⟩ := execCkadd_cases b s h
  · cases hp.symm.trans hidle
  · exact hlen
  · exact absurd hc hroom

theorem exec_ckfin_of_uncounted (arg : Byte) (s : State) (h : s.err = 0#3) (hp : s.phase = .accum)
    (hc : s.cnt = 0#4) : exec (.ckfin arg) s = .next (raiseFault .eLen s) := by
  obtain ⟨hidle, -⟩ | ⟨-, -, hlen⟩ | ⟨-, hcounted, -⟩ := execCkfin_cases arg s h
  · cases hp.symm.trans hidle
  · exact hlen
  · exact absurd hc hcounted

/-- Settles O35: the three branches; the new count is `cntSucc`, which counts below 15. -/
theorem ckaddFoldsAndCounts : Obligations.CkaddFoldsAndCounts := fun b s h =>
  ⟨encode_eq_add (.ckadd b) 0x4#4 rfl, exec_ckadd_of_idle b s h, exec_ckadd_of_full b s h,
    fun hp hc => ⟨cntSucc s.cnt, exec_ckadd_of_room b s h hp hc, cntSucc_toNat s.cnt⟩⟩

/-- Settles O36: the three branches; the complement is the subtraction from 255. -/
theorem ckfinAnswersTheComplement : Obligations.CkfinAnswersTheComplement := by
  intro arg s h
  refine ⟨encode_eq_add (.ckfin arg) 0x5#4 rfl, exec_ckfin_of_idle arg s h,
    exec_ckfin_of_uncounted arg s h, fun hp hc => ?_⟩
  rw [← complement_eq_sub]
  exact exec_ckfin_of_counted arg s h hp hc

end Sys2Proof.Machine
end

section
/-! PROOFS. 42_misc.md: `NOP` (R110). -/

namespace Sys2Proof.Machine

theorem exec_nop (arg : Byte) (s : State) (h : s.err = 0#3) :
    exec (.nop arg) s = .next (respond .ok 0x00#8 s) := by
  rw [exec, execNop, unlessFaulted_of_err_zero _ s h]

/-- Settles O31: the answer is the whole effect, and on a faulted block it is that of every command. -/
theorem nopAnswersAndWritesNothing : Obligations.NopAnswersAndWritesNothing := fun arg s =>
  ⟨encode_eq_add (.nop arg) 0x0#4 rfl, exec_nop arg s, exec_of_err_ne (.nop arg) s⟩

end Sys2Proof.Machine
end

section
/-! PROOFS. 60_exceptions.md: the faulted block (R129, R130), the causes of the four faults and their order (R121,
R127), and fault entry at the lengths and phases the commands do not allow (R123 to R125, R128, R133). -/

namespace Sys2Proof.Machine

/-! ### The faulted block -/

/-- A faulted block answers every word, whatever it decodes to (60_exceptions.md R129). -/
theorem runCommand_of_err_ne (w : CmdWord) (s : State) (h : s.err ≠ 0#3) :
    runCommand w s = .next (answerFaulted s) := by
  cases hd : decode w with
  | ok i => exact (runCommand_of_decode w s i hd).trans (exec_of_err_ne i s h)
  | error r =>
    exact (runCommand_of_reserved w s r hd).trans
      (congrArg Host.Outcome.next (unlessFaulted_of_err_ne _ s h))

theorem step_of_err_ne (s : State) (w : CmdWord) (rest : List HostMove)
    (hin : s.input = .command w :: rest) (h : s.err ≠ 0#3) :
    step s = .next (answerFaulted { s with input := rest }) :=
  (step_of_cons s _ rest hin).trans (runCommand_of_err_ne w _ h)

/-- A run of command words on a faulted block answers each one and changes nothing else. -/
theorem runSteps_of_err_ne (ws : List CmdWord) (rest : List HostMove) (s : State)
    (h : s.err ≠ 0#3) (hin : s.input = ws.map HostMove.command ++ rest) :
    runSteps ws.length s =
      .next { s with
        input := rest,
        responses := s.responses ++ List.replicate ws.length ⟨.eFaulted, errValue s⟩ } := by
  induction ws generalizing s with
  | nil =>
    obtain rfl : s.input = rest := hin
    simp
  | cons w ws ih =>
    have hstep := step_of_err_ne s w (ws.map HostMove.command ++ rest) hin h
    have hlater := ih (answerFaulted { s with input := ws.map HostMove.command ++ rest }) h rfl
    rw [List.length_cons, runSteps_succ _ _ _ hstep, hlater]
    simp [List.replicate_succ, answerFaulted, respond, errValue]

/-- Settles O41: the answer is the whole effect, and widening keeps the code, which the bounds hold to 1..4. -/
theorem faultedBlockOnlyAnswers : Obligations.FaultedBlockOnlyAnswers := by
  intro s w rest hin h
  refine ⟨step_of_err_ne s w rest hin h, fun ⟨_, hmax⟩ => ?_⟩
  have hpos : s.err.toNat ≠ 0 := fun h0 => h (BitVec.eq_of_toNat_eq h0)
  rw [BitVec.toNat_setWidth_of_le (by decide)]
  omega

/-- Settles O46: commands only answer, so a step keeps `ERR` unless its move is the reset event. -/
theorem onlyResetLeavesTheFaultedState : Obligations.OnlyResetLeavesTheFaultedState := by
  intro s h
  refine ⟨fun i => ⟨_, exec_of_err_ne i s h, rfl, rfl, rfl, rfl⟩, ?_⟩
  obtain ⟨-, hstep⟩ | ⟨rest, hin, hstep⟩ | ⟨w, rest, -, hin, -, -⟩ := step_cases s
  · exact ⟨s, hstep, .inl rfl⟩
  · exact ⟨_, hstep, .inr ⟨⟨rest, hin⟩, rfl, rfl⟩⟩
  · exact ⟨_, step_of_err_ne s w rest hin h, .inl rfl⟩

/-! ### The causes of the faults -/

/-- The commands and conditions that raise each fault on an unfaulted block (60_exceptions.md R121). -/
def FaultCause (w : CmdWord) (s : State) : FaultKind → Prop
  | .eRange => w.toNat / 256 = 1 ∧ 63 < w.toNat % 256
  | .eLen =>
    (w.toNat / 256 = 4 ∧ s.phase = .accum ∧ s.cnt = 8#4) ∨
      (w.toNat / 256 = 5 ∧ s.phase = .accum ∧ s.cnt = 0#4)
  | .eSeq => (w.toNat / 256 = 4 ∨ w.toNat / 256 = 5) ∧ s.phase = .idle
  | .eIllegal => 6 ≤ w.toNat / 256

/-- A cause is the first check that holds, so no two causes hold at once (60_exceptions.md R127). -/
theorem statusByOrder_of_cause {w : CmdWord} {s : State} {f : FaultKind} (h : s.err = 0#3)
    (hf : FaultCause w s f) : statusByOrder s w = .raised f := by
  cases f with
  | eRange =>
    obtain ⟨op, arg⟩ := hf
    simp [statusByOrder, h, op, arg]
  | eLen =>
    obtain ⟨op, phase, cnt⟩ | ⟨op, phase, cnt⟩ := hf <;>
      simp [statusByOrder, h, op, phase, cnt]
  | eSeq => obtain ⟨op | op, phase⟩ := hf <;> simp [statusByOrder, h, op, phase]
  | eIllegal =>
    have op : 6 ≤ w.toNat / 256 := hf
    simp [statusByOrder, h, op]

/-- On an unfaulted block a command word has a cause and is fault entry, or passes every check and answers `OK`. -/
theorem CommandEffect.fault_or_ok {w : CmdWord} {s t : State} (he : CommandEffect w s t)
    (h : s.err = 0#3) :
    (∃ f, FaultCause w s f ∧ t = raiseFault f s) ∨
      (statusByOrder s w = .ok ∧ t.err = 0#3 ∧ ∃ v, t.responses = s.responses ++ [⟨.ok, v⟩]) := by
  cases he with
  | faulted err => exact absurd h err
  | nop _ op => exact .inr ⟨by simp [statusByOrder, h, op], h, _, rfl⟩
  | pidgen _ op arg =>
    exact .inr ⟨by simp [statusByOrder, h, op, Nat.not_lt.2 arg], h, _, rfl⟩
  | pidgenRange _ op arg => exact .inl ⟨.eRange, ⟨op, arg⟩, rfl⟩
  | ckinitC _ op => exact .inr ⟨by simp [statusByOrder, h, op], h, _, rfl⟩
  | ckinitE _ op => exact .inr ⟨by simp [statusByOrder, h, op], h, _, rfl⟩
  | seq _ op phase => exact .inl ⟨.eSeq, ⟨op, phase⟩, rfl⟩
  | ckaddLen _ op phase cnt => exact .inl ⟨.eLen, .inl ⟨op, phase, cnt⟩, rfl⟩
  | ckadd _ op phase cnt => exact .inr ⟨by simp [statusByOrder, h, op, phase, cnt], h, _, rfl⟩
  | ckfinLen _ op phase cnt => exact .inl ⟨.eLen, .inr ⟨op, phase, cnt⟩, rfl⟩
  | ckfin _ op phase cnt => exact .inr ⟨by simp [statusByOrder, h, op, phase, cnt], h, _, rfl⟩
  | illegal _ op => exact .inl ⟨.eIllegal, op, rfl⟩

/-- The step on a word, on an unfaulted block. -/
theorem step_fault_or_ok (s : State) (w : CmdWord) (rest : List HostMove)
    (hin : s.input = .command w :: rest) (h : s.err = 0#3) :
    (∃ f, FaultCause w s f ∧ step s = .next (raiseFault f { s with input := rest })) ∨
      (statusByOrder s w = .ok ∧ ∃ t v, step s = .next t ∧ t.err = 0#3 ∧
        t.responses = s.responses ++ [⟨.ok, v⟩]) := by
  obtain ⟨t, hrun, he⟩ := runCommand_cases w { s with input := rest }
  have hstep : step s = .next t := (step_of_cons s _ rest hin).trans hrun
  obtain ⟨f, hf, rfl⟩ | ⟨hok, hte, v, hresp⟩ := he.fault_or_ok h
  · exact .inl ⟨f, hf, hstep⟩
  · exact .inr ⟨hok, t, v, hstep, hte, hresp⟩

/-- A word with a cause is fault entry: the cause settles which fault it is. -/
theorem step_of_cause (s : State) (w : CmdWord) (rest : List HostMove) (f : FaultKind)
    (hin : s.input = .command w :: rest) (h : s.err = 0#3) (hf : FaultCause w s f) :
    step s = .next (raiseFault f { s with input := rest }) := by
  have hstatus := statusByOrder_of_cause h hf
  obtain ⟨g, hg, hstep⟩ | ⟨hok, -⟩ := step_fault_or_ok s w rest hin h
  · obtain rfl : f = g := Status.raised.inj (hstatus.symm.trans (statusByOrder_of_cause h hg))
    exact hstep
  · cases hstatus.symm.trans hok

/-- Settles O42: a reserved opcode is the cause of `E_ILLEGAL`, and the cause mentions neither phase nor argument. -/
theorem reservedOpcodeIsIllegal : Obligations.ReservedOpcodeIsIllegal := fun s w rest hin h hop =>
  step_of_cause s w rest .eIllegal hin h hop

/-- Settles O43: a faulted block answers first; on an unfaulted one the cause, or its absence, gives the status. -/
theorem checksAreMadeInOrder : Obligations.ChecksAreMadeInOrder := by
  intro s w rest hin
  by_cases h : s.err = 0#3
  · obtain ⟨f, hf, hstep⟩ | ⟨hok, t, v, hstep, -, hresp⟩ := step_fault_or_ok s w rest hin h
    · exact ⟨_, 0x00#8, hstep, by rw [statusByOrder_of_cause h hf]; rfl⟩
    · exact ⟨t, v, hstep, by rw [hok, hresp]⟩
  · have hstatus : statusByOrder s w = .eFaulted := if_pos h
    exact ⟨_, errValue s, step_of_err_ne s w rest hin h, by rw [hstatus]; rfl⟩

theorem faultCode_ne_zero (f : FaultKind) : faultCode f ≠ 0#3 := by
  cases f <;> decide

theorem faultCode_injective : Function.Injective faultCode := by
  intro f g
  cases f <;> cases g <;> decide

/-- After the step `ERR` holds a fault's code exactly when that fault had its cause. -/
theorem err_eq_faultCode_iff (s t : State) (w : CmdWord) (rest : List HostMove) (f : FaultKind)
    (hin : s.input = .command w :: rest) (h : s.err = 0#3) (hstep : step s = .next t) :
    t.err = faultCode f ↔ FaultCause w s f := by
  refine ⟨fun hcode => ?_, fun hf => ?_⟩
  · obtain ⟨g, hg, hfault⟩ | ⟨-, u, -, hok, hzero, -⟩ := step_fault_or_ok s w rest hin h
    · cases hstep.symm.trans hfault
      exact faultCode_injective hcode ▸ hg
    · cases hstep.symm.trans hok
      exact absurd (hcode.symm.trans hzero) (faultCode_ne_zero f)
  · cases hstep.symm.trans (step_of_cause s w rest f hin h hf)
    rfl

/-- Settles O44: the four rows are one equivalence; status, value and bound are read off fault entry or `OK`. -/
theorem faultCauses : Obligations.FaultCauses := by
  intro s w rest hin h
  obtain ⟨f, -, hstep⟩ | ⟨-, t, v, hstep, hzero, hresp⟩ := step_fault_or_ok s w rest hin h
  · have hrow := err_eq_faultCode_iff s _ w rest (hin := hin) (h := h) (hstep := hstep)
    exact ⟨_, ⟨.raised f, 0x00#8⟩, hstep, rfl, hrow .eRange, hrow .eLen, hrow .eSeq,
      hrow .eIllegal, (faultCode_range f).2, rfl, fun _ => rfl⟩
  · have hrow := err_eq_faultCode_iff s t w rest (hin := hin) (h := h) (hstep := hstep)
    exact ⟨t, ⟨.ok, v⟩, hstep, hresp, hrow .eRange, hrow .eLen, hrow .eSeq, hrow .eIllegal,
      by simp [hzero], hzero.symm, fun hne => absurd hzero hne⟩

/-- Settles O45: a step that leaves `ERR` set was fault entry, and the words after it find a faulted block. -/
theorem faultsArePrecise : Obligations.FaultsArePrecise := by
  intro s w after rest h hin
  obtain ⟨f, -, hstep⟩ | ⟨-, t, v, hstep, hzero, -⟩ := step_fault_or_ok s w _ hin h
  · exact ⟨_, hstep, fun hne => ⟨rfl, rfl, rfl, ⟨f, rfl, rfl⟩, _,
      runSteps_of_err_ne after rest _ hne rfl, ⟨rfl, rfl, rfl, rfl⟩, rfl, rfl⟩⟩
  · exact ⟨t, hstep, fun hne => absurd hzero hne⟩

/-! ### Lengths and sequence -/

theorem step_of_ckinitOf (pid : Byte) (enhanced : Bool) (s : State) (rest : List HostMove)
    (h : s.err = 0#3) (hin : s.input = .command (encode (ckinitOf pid enhanced)) :: rest) :
    step s =
      .next (respond .ok 0x00#8 (startSum (accStart pid enhanced) { s with input := rest })) :=
  (step_of_encoded _ s rest hin).trans (exec_ckinitOf pid enhanced _ h)

theorem sendAll_eq_map_command (is : List Instr) :
    sendAll is = (is.map encode).map HostMove.command :=
  List.map_map.symm

/-- Length 0: the `CKFIN` finds the count the `CKINIT` left, which is 0 (60_exceptions.md R123). -/
theorem runSteps_ckinit_ckfin (pid a : Byte) (enhanced : Bool) (s : State) (rest : List HostMove)
    (h : s.err = 0#3) (hin : s.input = sendAll [ckinitOf pid enhanced, .ckfin a] ++ rest) :
    runSteps 2 s =
      .next (raiseFault .eLen
        (respond .ok 0x00#8 (startSum (accStart pid enhanced) { s with input := rest }))) := by
  rw [runSteps_succ 1 s _ (step_of_ckinitOf pid enhanced s _ h hin)]
  refine runSteps_succ 0 _ _ ((step_of_encoded (.ckfin a) _ rest rfl).trans ?_)
  exact exec_ckfin_of_uncounted a _ h rfl rfl

/-- A `CKINIT` and eight `CKADD`s all succeed and leave the count full. -/
theorem runSteps_ckinit_eight_ckadds (pid : Byte) (enhanced : Bool) (eight : List Byte) (s : State)
    (rest : List HostMove) (h : s.err = 0#3) (hlen : eight.length = 8)
    (hin : s.input = sendAll (ckinitOf pid enhanced :: eight.map Instr.ckadd) ++ rest) :
    ∃ t, runSteps 9 s = .next t ∧ t.input = rest ∧ t.err = 0#3 ∧ t.phase = .accum ∧
      t.acc = accAfter (accStart pid enhanced) eight ∧ t.cnt = 8#4 ∧
      t.responses = s.responses ++ List.replicate 9 ⟨.ok, 0x00#8⟩ := by
  have hinit := step_of_ckinitOf pid enhanced s _ h hin
  obtain ⟨t, hadds, htin, hte, htp, hacc, hcnt, hresp⟩ :=
    runSteps_ckadds eight rest
      (respond .ok 0x00#8 (startSum (accStart pid enhanced)
        { s with input := sendAll (eight.map Instr.ckadd) ++ rest }))
      h rfl (by simp [hlen]) rfl
  rw [hlen] at hadds hcnt hresp
  have hfull : t.cnt = 8#4 := BitVec.eq_of_toNat_eq hcnt
  refine ⟨t, (runSteps_succ 8 s _ hinit).trans hadds, htin, hte, htp, hacc, hfull, ?_⟩
  exact hresp.trans (List.append_assoc s.responses [_] _)

/-- Settles O47: `CNT` is 0 right after the `CKINIT` and 8 after the eighth `CKADD`; after the ninth the block is
faulted. -/
theorem lengthFaults : Obligations.LengthFaults := by
  intro s pid enhanced h
  refine ⟨fun a rest hin => ?zero, fun eight ninth more rest hlen hin => ?nine⟩
  case zero =>
    exact ⟨_, runSteps_ckinit_ckfin pid a enhanced s rest h hin, rfl, rfl,
      List.append_assoc s.responses [_] [_]⟩
  case nine =>
    rw [List.map_append, ← List.cons_append, sendAll_append, List.append_assoc] at hin
    obtain ⟨t, hrun, htin, hte, htp, hacc, hfull, hresp⟩ :=
      runSteps_ckinit_eight_ckadds pid enhanced eight s _ h hlen hin
    have hninth := (step_of_encoded (.ckadd ninth) t _ htin).trans
      (exec_ckadd_of_full ninth _ hte htp hfull)
    have hmore := runSteps_of_err_ne ((more.map Instr.ckadd).map encode) rest
      (raiseFault .eLen { t with input := sendAll (more.map Instr.ckadd) ++ rest })
      (faultCode_ne_zero .eLen) (congrArg (· ++ rest) (sendAll_eq_map_command _))
    rw [List.length_map, List.length_map] at hmore
    exact ⟨t, _, _, hrun, hte, hfull, htp, hacc, hresp, hninth, rfl, rfl, rfl, rfl, rfl, hmore,
      ⟨rfl, rfl, rfl, rfl⟩, rfl⟩

/-- Settles O40: fault entry is `raiseFault` by definition, and a faulted block's step keeps `ERR`. -/
theorem faultEntry : Obligations.FaultEntry :=
  ⟨fun f _ => ⟨rfl, rfl, faultCode_range f⟩,
    fun s w rest hin h => ⟨_, step_of_err_ne s w rest hin h, rfl⟩⟩

/-- Settles O48: the phase is checked before the count, and a `CKFIN` that succeeds ends the phase. -/
theorem sequenceFaults : Obligations.SequenceFaults := by
  refine ⟨fun i x s hi h hp => ?_, rfl, rfl, fun a s h hp hc => ?_⟩
  · obtain rfl | rfl := hi
    · exact exec_ckadd_of_idle x s h hp
    · exact exec_ckfin_of_idle x s h hp
  · exact ⟨_, exec_ckfin_of_counted a s h hp hc, rfl, h⟩

end Sys2Proof.Machine
end

section
/-! PROOFS. 30_encoding.md: the decoder and the encoder are inverse (R40, R42), the opcode map and the reserved opcodes
(R42, R45), the worked encodings (R51), the response word (R41, R44), and the dispatch of a word (R50). -/

namespace Sys2Proof.Machine

/-! ### Command words -/

/-- A word is its opcode field followed by its argument field (30_encoding.md R40). -/
theorem opField_append_argField (w : CmdWord) : opField w ++ argField w = w := by
  have hw := w.isLt
  apply BitVec.eq_of_toNat_eq
  rw [Laws.EncodedForm.toNat_append, opField_toNat, argField_eq, BitVec.toNat_setWidth]
  omega

theorem encode_eq_of_fields (i : Instr) (w : CmdWord) (hop : opcodeOf i = opField w)
    (harg : operandOf i = argField w) : encode i = w := by
  rw [encode, hop, harg, opField_append_argField]

/-- The decoder reads a command's opcode and argument off the word's two fields. -/
theorem fields_of_decode (w : CmdWord) (i : Instr) (h : decode w = .ok i) :
    opcodeOf i = opField w ∧ operandOf i = argField w := by
  unfold decode at h
  split_ifs at h with h0 h1 h2 h3 h4 h5 <;> cases h
  · exact ⟨h0.symm, rfl⟩
  · exact ⟨h1.symm, rfl⟩
  · exact ⟨h2.symm, rfl⟩
  · exact ⟨h3.symm, rfl⟩
  · exact ⟨h4.symm, rfl⟩
  · exact ⟨h5.symm, rfl⟩

/-- Settles O20: a decoded command carries the word's two fields, which make up the word; the other direction is
`decode_encode`. -/
theorem decodeAndEncodeAgree : Obligations.DecodeAndEncodeAgree := by
  refine fun w i => ⟨fun h => ?_, fun h => h ▸ decode_encode i⟩
  obtain ⟨hop, harg⟩ := fields_of_decode w i h
  exact encode_eq_of_fields i w hop harg

/-- A word with the command's opcode and argument decodes to the command, because it is the command's word. -/
theorem decode_of_opField (w : CmdWord) (i : Instr) (hop : opField w = opcodeOf i)
    (harg : operandOf i = w.setWidth 8) : decode w = .ok i := by
  rw [← encode_eq_of_fields i w hop.symm (harg.trans (argField_eq w).symm), decode_encode]

/-- The command a word of opcode 0 to 5 decodes to, by its opcode as a number (30_encoding.md R42). -/
theorem decode_of_opcode (w : CmdWord) (i : Instr) (hop : w.toNat / 256 = (opcodeOf i).toNat)
    (harg : operandOf i = w.setWidth 8) : decode w = .ok i :=
  decode_of_opField w i (BitVec.eq_of_toNat_eq ((opField_toNat w).trans hop)) harg

/-- The mask `0xF00` keeps the opcode field as it is, so a row's match gives the opcode (30_encoding.md R42). -/
theorem opField_of_mask (w : CmdWord) (op : Opcode)
    (h : w &&& 0xF00#12 = BitVec.ofNat 12 (op.toNat * 256)) : opField w = op := by
  have hrow : BitVec.ofNat 12 (op.toNat * 256) = op ++ 0x00#8 := by
    apply BitVec.eq_of_toNat_eq
    simp only [Laws.EncodedForm.toNat_append, BitVec.toNat_ofNat]
    omega
  have hmask : opField (w &&& 0xF00#12) = opField w &&& opField 0xF00#12 := BitVec.extractLsb'_and
  calc opField w = opField w &&& opField 0xF00#12 := BitVec.and_allOnes.symm
    _ = opField (w &&& 0xF00#12) := hmask.symm
    _ = op := by rw [h, hrow, (Laws.EncodedForm.fields_of_append op 0x00#8).1]

/-- One row of the opcode map (30_encoding.md R42). -/
theorem decode_of_mask (w : CmdWord) (i : Instr) (op : Opcode) (hop : opcodeOf i = op)
    (harg : operandOf i = w.setWidth 8) (h : w &&& 0xF00#12 = BitVec.ofNat 12 (op.toNat * 256)) :
    decode w = .ok i :=
  decode_of_opField w i ((opField_of_mask w op h).trans hop.symm) harg

theorem decode_of_reserved (w : CmdWord) (h : 6 ≤ w.toNat / 256) :
    decode w = .error (.reservedOpcode (opField w)) := by
  cases decodesTo w with
  | reserved _ hd => exact hd
  | nop op _ | pidgen op _ | ckinitC op _ | ckinitE op _ | ckadd op _ | ckfin op _ =>
    exact absurd h (by omega)

/-- Settles O21: each row is `decode_of_mask` at its command; from `0x600` on the opcode is reserved. -/
theorem opcodeMapSelectsTheCommand : Obligations.OpcodeMapSelectsTheCommand := by
  intro w
  refine ⟨decode_of_mask w (.nop (w.setWidth 8)) 0x0#4 rfl rfl,
    decode_of_mask w (.pidgen (w.setWidth 8)) 0x1#4 rfl rfl,
    decode_of_mask w (.ckinitC (w.setWidth 8)) 0x2#4 rfl rfl,
    decode_of_mask w (.ckinitE (w.setWidth 8)) 0x3#4 rfl rfl,
    decode_of_mask w (.ckadd (w.setWidth 8)) 0x4#4 rfl rfl,
    decode_of_mask w (.ckfin (w.setWidth 8)) 0x5#4 rfl rfl,
    fun h => ?reserved, ?wellFormed⟩
  case reserved =>
    rw [decode_of_reserved w (by omega), ← opField_toNat, BitVec.ofNat_toNat, BitVec.setWidth_eq]
  case wellFormed =>
    rw [wordWellFormed, decide_eq_true_eq]
    omega

/-- Settles O22: the six commands' words by `decode_encode`, the reserved words by their opcode; the response words are
concatenations of constants. -/
theorem workedEncodings : Obligations.WorkedEncodings :=
  ⟨decode_encode (.pidgen 0x06#8), decode_encode (.ckinitE 0x06#8), decode_encode (.ckadd 0x33#8),
    decode_encode (.ckfin 0x00#8), decode_encode (.ckinitC 0x00#8), decode_encode (.pidgen 0x40#8),
    decode_encode (.nop 0x00#8), decode_of_reserved 0x600#12 (by decide),
    decode_of_reserved 0xFFF#12 (by decide), rfl, rfl, rfl⟩

/-! ### Response words -/

/-- Settles O23: the two fields of a concatenation, and the codes by definition. -/
theorem responseWordLayout : Obligations.ResponseWordLayout :=
  ⟨fun _ => ⟨BitVec.extractLsb'_append_eq_left, BitVec.extractLsb'_append_eq_right⟩,
    rfl, rfl, rfl, rfl, rfl, rfl⟩

/-! ### The dispatch of a word -/

/-- Settles O27: the step carries out the word it takes, and the word runs the command it decodes to. -/
theorem stepRunsTheDecodedCommand : Obligations.StepRunsTheDecodedCommand := fun s w rest i hin hd =>
  (step_of_cons s (.command w) rest hin).trans (runCommand_of_decode w _ i hd)

/-- A table word that decodes is, cut to 12 bits, a word of its command. -/
theorem decode_of_decodeTableWord (nbits w : Nat) (i : Instr) (h : decodeTableWord nbits w = some i) :
    decode (BitVec.ofNat 12 (w % 2 ^ nbits)) = .ok i := by
  unfold decodeTableWord at h
  split at h
  next j hd => rw [hd, Option.some.inj h]
  next => cases h

/-- Settles O28: placing puts the word in front, so the next step takes it and leaves the state it was placed at. -/
theorem placedWordRunsNext : Obligations.PlacedWordRunsNext := fun s nbits w i h =>
  stepRunsTheDecodedCommand (s.withFetchWord nbits w) _ s.input i rfl
    (decode_of_decodeTableWord nbits w i h)

/-- Settles O30: the step by the empty list of moves. -/
theorem waitingChangesNothing : Obligations.WaitingChangesNothing := step_of_nil

end Sys2Proof.Machine
end

section
/-! PROOFS. 40_pid.md sections 2 and 5: the values of the table and which bytes are PIDs (R69), and how a host
checks one (R70). -/

namespace Sys2Proof.Machine

/-- The 64 values of the table lie between `0x03` and `0xFE` (40_pid.md R69). -/
theorem pidFromId_bounds : ∀ id : Ident, 0x03 ≤ (pidFromId id).toNat ∧ (pidFromId id).toNat ≤ 0xFE := by
  decide

theorem pidFromId_ne_zero (id : Ident) : pidFromId id ≠ 0x00#8 := fun h =>
  absurd (h ▸ pidFromId_bounds id) (by decide)

theorem pidFromId_ne_ff (id : Ident) : pidFromId id ≠ 0xFF#8 := fun h =>
  absurd (h ▸ pidFromId_bounds id) (by decide)

@[simp] theorem identOf_pidFromId (id : Ident) : identOf (pidFromId id) = id :=
  pidFromId_extractLsb'_low id

theorem pidFromId_injective : Function.Injective pidFromId :=
  Function.LeftInverse.injective identOf_pidFromId

/-- A byte is a PID exactly when it is the PID of its low six bits (40_pid.md R69). -/
theorem exists_pidFromId_eq_iff (v : Byte) :
    (∃ id, pidFromId id = v) ↔ pidFromId (identOf v) = v := by
  refine ⟨?_, fun h => ⟨_, h⟩⟩
  rintro ⟨id, rfl⟩
  rw [identOf_pidFromId]

/-- Settles O7: below 255 the residue is the value, and the identifier is its low six bits; `0x03` and `0xFE` are the
PIDs of 3 and 62. -/
theorem pidValuesAreDistinctAndRecognisable : Obligations.PidValuesAreDistinctAndRecognisable := by
  refine ⟨fun id id' h => ?_, pidFromId_bounds, ⟨3#6, rfl⟩, ⟨62#6, rfl⟩, exists_pidFromId_eq_iff⟩
  have hid := pidFromId_bounds id
  have hid' := pidFromId_bounds id'
  exact pidFromId_injective (BitVec.eq_of_toNat_eq (by omega))

/-- Masking with `0x3F` keeps the identifier and puts it in range (40_pid.md section 5). -/
theorem identOf_and_mask (v : Byte) : identOf (v &&& 0x3F#8) = identOf v := by
  rw [identOf, BitVec.extractLsb'_and]
  exact BitVec.and_allOnes

theorem and_mask_le (v : Byte) : (v &&& 0x3F#8).toNat ≤ 63 := by
  rw [BitVec.toNat_and]
  exact Nat.and_le_right

/-- Settles O39: the masked argument is in range, and its PID is the one to compare with. -/
theorem hostCanCheckAPid : Obligations.HostCanCheckAPid := by
  refine fun v s h => ⟨pidFromId (identOf v), ?_, (exists_pidFromId_eq_iff v).symm⟩
  rw [← identOf_and_mask]
  exact exec_pidgen_of_le _ s h (and_mask_le v)

end Sys2Proof.Machine
end

section
/-! PROOFS. 41_checksum.md sections 1 and 2: the accumulator as a function of the sum of the included bytes, and what
the spec derives from it (closed form, order, carry folding, extreme values, PIDs, the receiver's sum). -/

namespace Sys2Proof.Machine

/-! ### The fold of a sum of any size -/

/-- What a sum of any size folds to: 0 stays 0, and a positive sum folds to its residue modulo 255 in 1..255. -/
def closedFold (t : Nat) : Nat := if t = 0 then 0 else (t - 1) % 255 + 1

/-- The residue and being zero are all that the fold sees, and it keeps both. -/
theorem closedFold_eq_iff (t u : Nat) :
    closedFold t = closedFold u ↔ t % 255 = u % 255 ∧ (t = 0 ↔ u = 0) := by
  unfold closedFold
  split <;> split <;> omega

theorem closedFold_of_le (t : Nat) (h : t ≤ 255) : closedFold t = t := by
  unfold closedFold
  split_ifs <;> omega

theorem closedFold_le (t : Nat) : closedFold t ≤ 255 := by
  unfold closedFold
  split_ifs <;> omega

theorem closedFold_eq_zero_iff (t : Nat) : closedFold t = 0 ↔ t = 0 := by
  unfold closedFold
  split <;> omega

theorem closedFold_eq_255_iff (t : Nat) : closedFold t = 255 ↔ 0 < t ∧ t % 255 = 0 := by
  unfold closedFold
  split <;> omega

/-- Folding a part of a sum first makes no difference. -/
theorem closedFold_add_left (t u : Nat) : closedFold (closedFold t + u) = closedFold (t + u) := by
  rw [closedFold_eq_iff]
  unfold closedFold
  split_ifs <;> omega

/-- For a sum of two bytes one subtraction is the whole fold (41_checksum.md R87). -/
theorem foldSum_eq_closedFold (t : Nat) (h : t ≤ 510) : foldSum t = closedFold t := by
  unfold foldSum Config.foldLimit Config.foldAmount closedFold
  split_ifs <;> omega

theorem eacAdd_toNat_eq_closedFold (a b : Byte) :
    (eacAdd a b).toNat = closedFold (a.toNat + b.toNat) := by
  rw [eacAdd_toNat, foldSum_eq_closedFold _ (by omega)]

/-- The accumulator is the fold of the natural-number sum of what it includes (41_checksum.md R88). -/
theorem accAfter_toNat (start : Byte) (payload : List Byte) :
    (accAfter start payload).toNat = closedFold (start.toNat + (payload.map BitVec.toNat).sum) := by
  induction payload generalizing start with
  | nil => exact (closedFold_of_le _ (by omega)).symm
  | cons b bs ih =>
    rw [accAfter_cons, ih, eacAdd_toNat_eq_closedFold, closedFold_add_left, List.map_cons,
      List.sum_cons, Nat.add_assoc]

theorem accAfter_toNat_includedSum (pid : Byte) (payload : List Byte) (enhanced : Bool) :
    (accAfter (accStart pid enhanced) payload).toNat =
      closedFold (includedSum pid payload enhanced) :=
  accAfter_toNat _ payload

/-! ### The checksum and the accumulator -/

/-- A checksum is the complement of the accumulator, and only a payload of 1 to 8 bytes has one. -/
theorem checksum_eq_some_iff (pid : Byte) (payload : List Byte) (enhanced : Bool) (v : Byte) :
    checksum pid payload enhanced = some v ↔
      (1 ≤ payload.length ∧ payload.length ≤ 8) ∧
        complement (accAfter (accStart pid enhanced) payload) = v := by
  simp only [checksum, Option.ite_none_right_eq_some, Option.some.injEq, lengthInDomain_iff]

theorem complement_inj (a b : Byte) : complement a = complement b ↔ a = b := BitVec.not_inj

/-- In the domain two checksums agree exactly when the accumulators do. -/
theorem checksum_eq_checksum_iff (p q : Byte) (payload : List Byte) (e e' : Bool)
    (h : 1 ≤ payload.length ∧ payload.length ≤ 8) :
    checksum p payload e = checksum q payload e' ↔
      accAfter (accStart p e) payload = accAfter (accStart q e') payload := by
  rw [checksum_of_length p payload e h, checksum_of_length q payload e' h, Option.some.injEq,
    complement_inj]

/-- Settles O9: below 511 the one subtraction leaves 1 to 255, and it takes 256 off and adds 1. -/
theorem oneFoldPerByteIsEnough : Obligations.OneFoldPerByteIsEnough := by
  intro a b
  obtain ⟨hsums, -⟩ := endAroundCarryAddition
  obtain ⟨hsum, -⟩ := hsums a b
  rw [hsum]
  split <;> omega

/-- Settles O11: there is no value exactly outside the domain, and complementing twice gives the accumulator back. -/
theorem checksumDomainAndRoundTrip : Obligations.ChecksumDomainAndRoundTrip := by
  refine fun pid payload enhanced => ⟨?domain, fun v hv => ?roundTrip⟩
  case domain =>
    have hnone : checksum pid payload enhanced = none ↔ ¬ (1 ≤ payload.length ∧ payload.length ≤ 8) := by
      rw [← lengthInDomain_iff]
      simp [checksum]
    rw [hnone]
    omega
  case roundTrip =>
    obtain ⟨-, rfl⟩ := (checksum_eq_some_iff _ _ _ _).1 hv
    exact BitVec.not_not

/-- Settles O13: the accumulator is `closedFold` of the sum, by induction on the payload in `accAfter_toNat`. -/
theorem checksumClosedForm : Obligations.ChecksumClosedForm := by
  refine fun pid payload enhanced => ⟨accAfter_toNat_includedSum pid payload enhanced, fun v hv => ?_⟩
  obtain ⟨-, rfl⟩ := (checksum_eq_some_iff _ _ _ _).1 hv
  exact complement_toNat _

/-- Settles O19: a byte and its complement add up to 255, which needs no fold. -/
theorem receiverSumIsFF : Obligations.ReceiverSumIsFF := by
  intro pid payload enhanced v hv
  obtain ⟨-, rfl⟩ := (checksum_eq_some_iff _ _ _ _).1 hv
  apply BitVec.eq_of_toNat_eq
  rw [eacAdd_toNat_eq_closedFold, complement_toNat, Nat.add_sub_of_le (by omega)]
  rfl

/-! ### Order -/

theorem eacAdd_comm (a b : Byte) : eacAdd a b = eacAdd b a := by
  rw [eacAdd, eacAdd, Nat.add_comm]

theorem eacAdd_assoc (a b c : Byte) : eacAdd (eacAdd a b) c = eacAdd a (eacAdd b c) := by
  apply BitVec.eq_of_toNat_eq
  rw [eacAdd_comm a (eacAdd b c)]
  simp only [eacAdd_toNat_eq_closedFold, closedFold_add_left]
  congr 1
  omega

/-- The start value may be folded in last. -/
theorem accAfter_eq_eacAdd (start : Byte) (payload : List Byte) :
    accAfter start payload = eacAdd (accAfter 0#8 payload) start := by
  apply BitVec.eq_of_toNat_eq
  rw [eacAdd_toNat_eq_closedFold, accAfter_toNat, accAfter_toNat, closedFold_add_left,
    BitVec.toNat_zero, Nat.zero_add, Nat.add_comm]

theorem accAfter_perm (start : Byte) (p q : List Byte) (h : p.Perm q) :
    accAfter start p = accAfter start q := by
  apply BitVec.eq_of_toNat_eq
  rw [accAfter_toNat, accAfter_toNat, (h.map BitVec.toNat).sum_eq]

/-- Settles O14: everything depends on the natural-number sum, where the order does not matter. -/
theorem checksumIsOrderIndependent : Obligations.ChecksumIsOrderIndependent := by
  refine ⟨eacAdd_comm, eacAdd_assoc, fun pid p q enhanced h => ?_, accAfter_eq_eacAdd⟩
  rw [checksum, checksum, h.length_eq, accAfter_perm _ p q h]

/-! ### Carry folding at 16 bits -/

/-- A pass keeps the residue modulo 255 and whether the sum is 0, so the fold sees no difference. -/
theorem closedFold_foldPass (t : Nat) : closedFold (foldPass t) = closedFold t := by
  rw [closedFold_eq_iff]
  refine ⟨foldPass_mod t, ?_⟩
  unfold foldPass
  omega

/-- With enough passes the loop ends at the fold: each pass above 255 makes the value smaller. -/
theorem foldLoop_eq_closedFold (fuel t : Nat) (h : t ≤ fuel) : foldLoop fuel t = closedFold t := by
  induction fuel generalizing t with
  | zero => exact (closedFold_of_le t (by omega)).symm
  | succ fuel ih =>
    rw [foldLoop]
    split
    next hgt =>
      obtain ⟨hlt, -⟩ := foldPass_lt t hgt
      rw [ih _ (by omega), closedFold_foldPass]
    next hle => exact (closedFold_of_le t (by omega)).symm

theorem carryFold_eq_closedFold (t : Nat) : carryFold t = closedFold t :=
  foldLoop_eq_closedFold t t le_rfl

/-- Nine bytes add up to at most 2295 (41_checksum.md R90). -/
theorem includedSum_le (pid : Byte) (payload : List Byte) (enhanced : Bool)
    (h : payload.length ≤ 8) : includedSum pid payload enhanced ≤ 2295 := by
  have hsum : (payload.map BitVec.toNat).sum ≤ (payload.map BitVec.toNat).length • 255 := by
    refine List.sum_le_card_nsmul _ _ fun n hn => ?_
    obtain ⟨b, -, rfl⟩ := List.mem_map.1 hn
    omega
  rw [List.length_map, smul_eq_mul] at hsum
  unfold includedSum
  omega

/-- Settles O15: both sides of the loop's equation are the fold, which is the accumulator; two passes by the bound on
the sum. -/
theorem carryFoldingGivesTheSameChecksum : Obligations.CarryFoldingGivesTheSameChecksum := by
  refine ⟨fun t => ?loop, fun pid payload enhanced hmin hmax => ⟨?byte, ?passes, ?same⟩⟩
  case loop =>
    rw [carryFold_eq_closedFold, carryFold_eq_closedFold, closedFold_foldPass]
    split
    · rfl
    · exact closedFold_of_le t (by omega)
  case byte =>
    rw [carryFold_eq_closedFold]
    exact closedFold_le _
  case passes =>
    have hsum := includedSum_le pid payload enhanced hmax
    unfold foldPass
    omega
  case same =>
    rw [checksum_of_length pid payload enhanced ⟨hmin, hmax⟩, carryFold_eq_closedFold,
      ← accAfter_toNat_includedSum, ← complement_toNat, BitVec.ofNat_toNat, BitVec.setWidth_eq]

/-! ### Extreme values and collisions -/

theorem payload_sum_eq_zero_iff (payload : List Byte) :
    (payload.map BitVec.toNat).sum = 0 ↔ ∀ b ∈ payload, b = 0#8 := by
  simp [List.sum_eq_zero_iff, BitVec.toNat_eq]

theorem includedSum_eq_zero_iff (pid : Byte) (payload : List Byte) (enhanced : Bool) :
    includedSum pid payload enhanced = 0 ↔
      accStart pid enhanced = 0#8 ∧ ∀ b ∈ payload, b = 0#8 := by
  rw [includedSum, Nat.add_eq_zero_iff, payload_sum_eq_zero_iff, ← BitVec.toNat_inj,
    BitVec.toNat_zero]

theorem complement_eq_iff (a v : Byte) : complement a = v ↔ a.toNat = 255 - v.toNat := by
  rw [← BitVec.toNat_inj, complement_toNat]
  omega

/-- In the domain the checksum is `v` exactly when the folded sum is `255 - v`. -/
theorem checksum_eq_some_iff_closedFold (pid : Byte) (payload : List Byte) (enhanced : Bool)
    (v : Byte) (h : 1 ≤ payload.length ∧ payload.length ≤ 8) :
    checksum pid payload enhanced = some v ↔
      closedFold (includedSum pid payload enhanced) = 255 - v.toNat := by
  rw [checksum_eq_some_iff, complement_eq_iff, accAfter_toNat_includedSum]
  exact and_iff_right h

/-- Settles O16: the folded sum is 0 only for the sum 0, and 255 for the positive multiples of 255; one byte alone
is its own fold; a valid PID is not 0. -/
theorem extremeChecksums : Obligations.ExtremeChecksums := by
  refine ⟨fun pid payload enhanced hmin hmax => ⟨?ff, ?zero⟩, fun v => ⟨complement v, ?every⟩,
    fun id payload hff => ?valid⟩
  case ff =>
    rw [checksum_eq_some_iff_closedFold _ _ _ _ ⟨hmin, hmax⟩, ← includedSum_eq_zero_iff]
    exact closedFold_eq_zero_iff _
  case zero =>
    rw [checksum_eq_some_iff_closedFold _ _ _ _ ⟨hmin, hmax⟩]
    exact closedFold_eq_255_iff _
  case every =>
    rw [checksum_eq_some_iff_closedFold _ _ _ _ ⟨le_rfl, by simp⟩]
    have hsum : includedSum 0#8 [complement v] false = 255 - v.toNat := by
      simp [includedSum, accStart, complement_toNat]
    rw [hsum, closedFold_of_le _ (by omega)]
  case valid =>
    obtain ⟨hlen, -⟩ := (checksum_eq_some_iff _ _ _ _).1 hff
    rw [checksum_eq_some_iff_closedFold _ _ _ _ hlen] at hff
    obtain ⟨hpid, -⟩ := (includedSum_eq_zero_iff _ _ _).1 ((closedFold_eq_zero_iff _).1 hff)
    exact pidFromId_ne_zero id hpid

/-- Two start values give one accumulator exactly when they are equal, or are 0x00 and 0xFF with a non-zero byte added:
of the bytes these two alone are congruent modulo 255. -/
theorem accAfter_eq_accAfter_iff (p q : Byte) (payload : List Byte) :
    accAfter p payload = accAfter q payload ↔
      p = q ∨ ((p = 0x00#8 ∧ q = 0xFF#8) ∨ (p = 0xFF#8 ∧ q = 0x00#8)) ∧ ∃ b ∈ payload, b ≠ 0#8 := by
  have hnonzero : (∃ b ∈ payload, b ≠ 0#8) ↔ (payload.map BitVec.toNat).sum ≠ 0 := by
    rw [Ne, payload_sum_eq_zero_iff]
    push Not
    rfl
  rw [hnonzero]
  simp only [← BitVec.toNat_inj, accAfter_toNat, closedFold_eq_iff, BitVec.toNat_ofNat]
  omega

/-- Settles O17: the accumulators of distinct PIDs, by `accAfter_eq_accAfter_iff`; no valid PID is 0x00 or 0xFF. -/
theorem pidCollisions : Obligations.PidCollisions := by
  refine ⟨fun p q payload hmin hmax hne => ?_, fun id id' payload hmin hmax hne h => ?_⟩
  · rw [checksum_eq_checksum_iff p q payload true true ⟨hmin, hmax⟩]
    exact (accAfter_eq_accAfter_iff p q payload).trans (or_iff_right hne)
  · rw [checksum_eq_checksum_iff _ _ payload true true ⟨hmin, hmax⟩] at h
    obtain heq | ⟨⟨hzero, -⟩ | ⟨hff, -⟩, -⟩ := (accAfter_eq_accAfter_iff _ _ payload).1 h
    · exact hne (pidFromId_injective heq)
    · exact pidFromId_ne_zero id hzero
    · exact pidFromId_ne_ff id hff

/-- The classic variant is the enhanced one of PID 0x00, so this too is a question of two start values. -/
theorem enhanced_eq_classic_iff (pid : Byte) (payload : List Byte)
    (h : 1 ≤ payload.length ∧ payload.length ≤ 8) :
    checksum pid payload true = checksum pid payload false ↔
      pid = 0x00#8 ∨ (pid = 0xFF#8 ∧ ∃ b ∈ payload, b ≠ 0#8) := by
  have hnot : ¬ (pid = 0x00#8 ∧ (0x00#8 : Byte) = 0xFF#8) := fun ⟨_, h0⟩ => absurd h0 (by decide)
  rw [checksum_eq_checksum_iff _ _ payload true false h]
  refine (accAfter_eq_accAfter_iff pid 0x00#8 payload).trans ?_
  rw [or_iff_right hnot, and_iff_left rfl]

/-- Settles O18: `enhanced_eq_classic_iff`, and no valid PID is 0x00 or 0xFF. -/
theorem classicAndEnhancedDiffer : Obligations.ClassicAndEnhancedDiffer := by
  refine ⟨fun pid payload hmin hmax => enhanced_eq_classic_iff pid payload ⟨hmin, hmax⟩,
    fun id payload hmin hmax h => ?_⟩
  obtain hzero | ⟨hff, -⟩ := (enhanced_eq_classic_iff _ payload ⟨hmin, hmax⟩).1 h
  · exact pidFromId_ne_zero id hzero
  · exact pidFromId_ne_ff id hff

end Sys2Proof.Machine
end

section
/-! PROOFS. 10_state.md section 9: the bounds (R21 (b), (c)) and the tracked sum (R21 (e)), each at reset and over every
step; section 10: what no sequence of moves can observe (R24). -/

namespace Sys2Proof.Machine

/-! ### The bounds -/

/-- A `CKADD` with room counts up to 8 at most. -/
theorem cntSucc_le_eight (c : Count) (hle : c.toNat ≤ 8) (hroom : c ≠ 8#4) :
    (cntSucc c).toNat ≤ 8 := by
  have hne : c.toNat ≠ 8 := fun h => hroom (BitVec.eq_of_toNat_eq h)
  rw [cntSucc_toNat c (by omega)]
  omega

/-- `CNT` is set to 0, counted up with room, or kept; `ERR` is set to a fault's code or kept. -/
theorem CommandEffect.inv {w : CmdWord} {s t : State} (he : CommandEffect w s t) (h : Inv s) :
    Inv t := by
  obtain ⟨hcnt, herr⟩ := h
  cases he with
  | faulted | nop | pidgen | ckfin => exact ⟨hcnt, herr⟩
  | pidgenRange | seq | ckaddLen | ckfinLen | illegal => exact ⟨hcnt, (faultCode_range _).2⟩
  | ckinitC | ckinitE => exact ⟨Nat.zero_le 8, herr⟩
  | ckadd _ _ _ hroom => exact ⟨cntSucc_le_eight s.cnt hcnt hroom, herr⟩

/-- Settles O51: both fields are 0. -/
theorem boundsHoldAtReset : Obligations.BoundsHoldAtReset := fun _ =>
  ⟨Nat.zero_le 8, Nat.zero_le 4⟩

/-- Settles O52: waiting keeps everything, a reset event sets both fields to 0, and every command's effect keeps the
bounds. -/
theorem everyStepKeepsTheBounds : Obligations.EveryStepKeepsTheBounds := by
  intro s t h hstep
  obtain ⟨-, hwait⟩ | ⟨rest, -, hreset⟩ | ⟨w, rest, u, -, hword, he⟩ := step_cases s
  · cases hstep.symm.trans hwait
    exact h
  · cases hstep.symm.trans hreset
    exact ⟨Nat.zero_le 8, Nat.zero_le 4⟩
  · cases hstep.symm.trans hword
    exact he.inv h

/-! ### The tracked sum -/

theorem tracksSum_of_idle (s : State) (g : Option Included) (h : s.phase = .idle) : TracksSum s g :=
  fun hp _ => nomatch h.symm.trans hp

theorem tracksSum_of_err_ne (s : State) (g : Option Included) (h : s.err ≠ 0#3) : TracksSum s g :=
  fun _ herr => absurd herr h

theorem tracksSum_raiseFault (f : FaultKind) (s : State) (g : Option Included) :
    TracksSum (raiseFault f s) g :=
  tracksSum_of_err_ne _ g (faultCode_ne_zero f)

/-- A new checksum has included its start value alone (41_checksum.md R94, R95). -/
theorem tracksSum_startSum (start : Byte) (s : State) :
    TracksSum (startSum start s) (some ⟨start, []⟩) :=
  fun _ _ => ⟨_, rfl, rfl, rfl, Nat.zero_le 8⟩

/-- A `CKADD` with room includes one byte more, in `ACC`, in `CNT` and in the history (41_checksum.md R96). -/
theorem tracksSum_addByte (b : Byte) (s : State) (g : Option Included) (hroom : s.cnt ≠ 8#4)
    (h : TracksSum s g) :
    TracksSum (addByte b s) (g.map fun x => ⟨x.start, x.payload ++ [b]⟩) := by
  intro hp he
  obtain ⟨x, rfl, hacc, hcnt, hle⟩ := h hp he
  have hne : x.payload.length ≠ 8 := fun h8 => hroom (BitVec.eq_of_toNat_eq (hcnt.trans h8))
  have hcount : (cntSucc s.cnt).toNat = s.cnt.toNat + 1 := cntSucc_toNat s.cnt (by omega)
  refine ⟨_, rfl, ?_, ?_, ?_⟩
  · rw [addByte_acc, hacc, accAfter_append, accAfter_cons, accAfter_nil]
  · rw [addByte_cnt, hcount, hcnt, List.length_append, List.length_singleton]
  · rw [List.length_append, List.length_singleton]
    omega

/-- What a command does to the sum it does to the history: both stay, start anew, or take one byte more. -/
theorem CommandEffect.tracksSum {w : CmdWord} {rest : List HostMove} {s t : State}
    {g : Option Included} (hin : s.input = .command w :: rest)
    (he : CommandEffect w { s with input := rest } t) (h : TracksSum s g) :
    TracksSum t (includedNext s g) := by
  cases he with
  | faulted err => exact tracksSum_of_err_ne _ _ err
  | pidgenRange | seq | ckaddLen | ckfinLen | illegal =>
    exact tracksSum_raiseFault _ _ _
  | ckfin => exact tracksSum_of_idle _ _ rfl
  | nop _ op =>
    have hd := decode_of_opcode w (.nop (w.setWidth 8)) op rfl
    simp only [includedNext, hin, hd]
    exact h
  | pidgen _ op _ =>
    have hd := decode_of_opcode w (.pidgen (w.setWidth 8)) op rfl
    simp only [includedNext, hin, hd]
    exact h
  | ckinitC _ op =>
    have hd := decode_of_opcode w (.ckinitC (w.setWidth 8)) op rfl
    simp only [includedNext, hin, hd]
    exact tracksSum_startSum 0x00#8 s
  | ckinitE _ op =>
    have hd := decode_of_opcode w (.ckinitE (w.setWidth 8)) op rfl
    simp only [includedNext, hin, hd]
    exact tracksSum_startSum (w.setWidth 8) s
  | ckadd _ op _ hroom =>
    have hd := decode_of_opcode w (.ckadd (w.setWidth 8)) op rfl
    simp only [includedNext, hin, hd]
    exact tracksSum_addByte (w.setWidth 8) s g hroom h

/-- Settles O53: the phase is `IDLE` at reset. -/
theorem sumIsTrackedAtReset : Obligations.SumIsTrackedAtReset := fun _ =>
  tracksSum_of_idle _ _ rfl

/-- Settles O54: waiting keeps state and history, a reset event leaves `IDLE`, and every command's effect keeps the two
in step. -/
theorem everyStepTracksTheSum : Obligations.EveryStepTracksTheSum := by
  intro s t g h hstep
  obtain ⟨hin, hwait⟩ | ⟨rest, -, hreset⟩ | ⟨w, rest, u, hin, hword, he⟩ := step_cases s
  · cases hstep.symm.trans hwait
    simpa only [includedNext, hin] using h
  · cases hstep.symm.trans hreset
    exact tracksSum_of_idle _ _ rfl
  · cases hstep.symm.trans hword
    exact he.tracksSum hin h

/-! ### What cannot be observed -/

namespace SameView

variable {s₁ s₂ : State} (h : SameView s₁ s₂)
include h

/-- With a checksum in progress on an unfaulted block nothing of the block is hidden. -/
theorem acc_cnt (he : s₁.err = 0#3) (hp : s₁.phase = .accum) :
    s₁.acc = s₂.acc ∧ s₁.cnt = s₂.cnt := by
  obtain ⟨-, -, hblock⟩ := h
  obtain ⟨-, hsum⟩ := hblock he
  exact hsum hp

theorem respond (st : Status) (v : Byte) : SameView (respond st v s₁) (respond st v s₂) := h

theorem raiseFault (f : FaultKind) : SameView (raiseFault f s₁) (raiseFault f s₂) := by
  obtain ⟨hin, -, -⟩ := h
  exact ⟨hin, rfl, fun h0 => absurd h0 (faultCode_ne_zero f)⟩

theorem startSum (start : Byte) : SameView (startSum start s₁) (startSum start s₂) := by
  obtain ⟨hin, herr, -⟩ := h
  exact ⟨hin, herr, fun _ => ⟨rfl, fun _ => ⟨rfl, rfl⟩⟩⟩

theorem addByte (b : Byte) : SameView (addByte b s₁) (addByte b s₂) := by
  obtain ⟨hin, herr, hblock⟩ := h
  refine ⟨hin, herr, fun he => ?_⟩
  obtain ⟨hphase, hsum⟩ := hblock he
  refine ⟨hphase, fun hp => ?_⟩
  obtain ⟨hacc, hcnt⟩ := hsum hp
  exact ⟨congrArg (eacAdd · b) hacc, congrArg cntSucc hcnt⟩

/-- Ending a checksum hides `ACC` and `CNT`. -/
theorem endSum : SameView (endSum s₁) (endSum s₂) := by
  obtain ⟨hin, herr, -⟩ := h
  exact ⟨hin, herr, fun _ => ⟨rfl, nofun⟩⟩

theorem resetBlock : SameView (resetBlock s₁) (resetBlock s₂) := by
  obtain ⟨hin, -, -⟩ := h
  exact ⟨hin, rfl, fun _ => ⟨rfl, nofun⟩⟩

theorem withInput (rest : List HostMove) :
    SameView { s₁ with input := rest } { s₂ with input := rest } := by
  obtain ⟨-, hblock⟩ := h
  exact ⟨rfl, hblock⟩

end SameView

/-- `f` takes the two states to the same view again and adds one response, the same to both. -/
def AnswersAlike (f : State → Host.Outcome State Fault Refusal) (s₁ s₂ : State) : Prop :=
  ∃ t₁ t₂ r, f s₁ = .next t₁ ∧ f s₂ = .next t₂ ∧ SameView t₁ t₂ ∧
    t₁.responses = s₁.responses ++ [r] ∧ t₂.responses = s₂.responses ++ [r]

/-- The checks of a command read what the view shows, so both states pass or fail the same one; and `ACC`, which `CKFIN`
alone answers with, is shown while a checksum is in progress. -/
theorem exec_answersAlike (i : Instr) (s₁ s₂ : State) (h : SameView s₁ s₂) (he₁ : s₁.err = 0#3) :
    AnswersAlike (exec i) s₁ s₂ := by
  have ⟨_, herr, hblock⟩ := h
  obtain ⟨hphase, -⟩ := hblock he₁
  have he₂ : s₂.err = 0#3 := herr.symm.trans he₁
  cases i with
  | nop arg =>
    exact ⟨_, _, _, exec_nop arg s₁ he₁, exec_nop arg s₂ he₂, h.respond _ _, rfl, rfl⟩
  | pidgen arg =>
    by_cases ha : arg.toNat ≤ 63
    · exact ⟨_, _, _, exec_pidgen_of_le arg s₁ he₁ ha, exec_pidgen_of_le arg s₂ he₂ ha,
        h.respond _ _, rfl, rfl⟩
    · have hgt : 63 < arg.toNat := by omega
      exact ⟨_, _, _, exec_pidgen_of_gt arg s₁ he₁ hgt, exec_pidgen_of_gt arg s₂ he₂ hgt,
        h.raiseFault _, rfl, rfl⟩
  | ckinitC arg =>
    exact ⟨_, _, _, exec_ckinitC arg s₁ he₁, exec_ckinitC arg s₂ he₂, (h.startSum _).respond _ _,
      rfl, rfl⟩
  | ckinitE pid =>
    exact ⟨_, _, _, exec_ckinitE pid s₁ he₁, exec_ckinitE pid s₂ he₂, (h.startSum _).respond _ _,
      rfl, rfl⟩
  | ckadd b =>
    obtain ⟨hp, hseq⟩ | ⟨hp, hc, hlen⟩ | ⟨hp, hc, hadd⟩ := execCkadd_cases b s₁ he₁
    · exact ⟨_, _, _, hseq, exec_ckadd_of_idle b s₂ he₂ (hphase ▸ hp), h.raiseFault _, rfl, rfl⟩
    · obtain ⟨-, hcnt⟩ := h.acc_cnt he₁ hp
      exact ⟨_, _, _, hlen, exec_ckadd_of_full b s₂ he₂ (hphase ▸ hp) (hcnt ▸ hc),
        h.raiseFault _, rfl, rfl⟩
    · obtain ⟨-, hcnt⟩ := h.acc_cnt he₁ hp
      exact ⟨_, _, _, hadd, exec_ckadd_of_room b s₂ he₂ (hphase ▸ hp) (hcnt ▸ hc),
        (h.addByte b).respond _ _, rfl, rfl⟩
  | ckfin arg =>
    obtain ⟨hp, hseq⟩ | ⟨hp, hc, hlen⟩ | ⟨hp, hc, hfin⟩ := execCkfin_cases arg s₁ he₁
    · exact ⟨_, _, _, hseq, exec_ckfin_of_idle arg s₂ he₂ (hphase ▸ hp), h.raiseFault _, rfl, rfl⟩
    · obtain ⟨-, hcnt⟩ := h.acc_cnt he₁ hp
      exact ⟨_, _, _, hlen, exec_ckfin_of_uncounted arg s₂ he₂ (hphase ▸ hp) (hcnt ▸ hc),
        h.raiseFault _, rfl, rfl⟩
    · obtain ⟨hacc, hcnt⟩ := h.acc_cnt he₁ hp
      refine ⟨_, _, ⟨.ok, complement s₁.acc⟩, hfin,
        exec_ckfin_of_counted arg s₂ he₂ (hphase ▸ hp) (hcnt ▸ hc), h.endSum, rfl, ?_⟩
      rw [endSum_responses, respond_responses, hacc]

theorem runCommand_answersAlike (w : CmdWord) (s₁ s₂ : State) (h : SameView s₁ s₂) :
    AnswersAlike (runCommand w) s₁ s₂ := by
  have ⟨_, herr, _⟩ := h
  by_cases he₁ : s₁.err = 0#3
  · have he₂ : s₂.err = 0#3 := herr.symm.trans he₁
    cases hd : decode w with
    | ok i =>
      obtain ⟨t₁, t₂, r, h₁, h₂, hanswers⟩ := exec_answersAlike i s₁ s₂ h he₁
      exact ⟨t₁, t₂, r, (runCommand_of_decode w s₁ i hd).trans h₁,
        (runCommand_of_decode w s₂ i hd).trans h₂, hanswers⟩
    | error r =>
      have hillegal (s : State) (he : s.err = 0#3) :
          runCommand w s = .next (raiseFault .eIllegal s) :=
        (runCommand_of_reserved w s r hd).trans
          (congrArg Host.Outcome.next (unlessFaulted_of_err_zero _ s he))
      exact ⟨_, _, _, hillegal s₁ he₁, hillegal s₂ he₂, h.raiseFault _, rfl, rfl⟩
  · refine ⟨_, _, ⟨.eFaulted, errValue s₁⟩, runCommand_of_err_ne w s₁ he₁,
      runCommand_of_err_ne w s₂ (herr ▸ he₁), h, rfl, ?_⟩
    rw [answerFaulted_responses, errValue, errValue, herr]

/-- One step keeps the view and adds the same responses: none when the block waits or is reset, one for a command. -/
theorem step_sameView (s₁ s₂ : State) (h : SameView s₁ s₂) :
    ∃ t₁ t₂ rs, step s₁ = .next t₁ ∧ step s₂ = .next t₂ ∧ SameView t₁ t₂ ∧
      t₁.responses = s₁.responses ++ rs ∧ t₂.responses = s₂.responses ++ rs := by
  have ⟨hin, _, _⟩ := h
  cases hmoves : s₁.input with
  | nil =>
    exact ⟨s₁, s₂, [], step_of_nil s₁ hmoves, step_of_nil s₂ (hin ▸ hmoves), h,
      (List.append_nil _).symm, (List.append_nil _).symm⟩
  | cons m rest =>
    have hstep₁ := step_of_cons s₁ m rest hmoves
    have hstep₂ := step_of_cons s₂ m rest (hin ▸ hmoves)
    cases m with
    | reset =>
      exact ⟨_, _, [], hstep₁, hstep₂, (h.withInput rest).resetBlock, (List.append_nil _).symm,
        (List.append_nil _).symm⟩
    | command w =>
      obtain ⟨t₁, t₂, r, h₁, h₂, hview, hresp₁, hresp₂⟩ :=
        runCommand_answersAlike w _ _ (h.withInput rest)
      exact ⟨t₁, t₂, [r], hstep₁.trans h₁, hstep₂.trans h₂, hview, hresp₁, hresp₂⟩

/-- Settles O57, by induction on the number of steps. -/
theorem hiddenStateIsUnobservable : Obligations.HiddenStateIsUnobservable := by
  intro n
  induction n with
  | zero =>
    exact fun s₁ s₂ h =>
      ⟨s₁, s₂, [], rfl, rfl, h, (List.append_nil _).symm, (List.append_nil _).symm⟩
  | succ n ih =>
    intro s₁ s₂ h
    obtain ⟨u₁, u₂, rs, hstep₁, hstep₂, hview, hresp₁, hresp₂⟩ := step_sameView s₁ s₂ h
    obtain ⟨t₁, t₂, qs, hrun₁, hrun₂, hview', hresp₁', hresp₂'⟩ := ih u₁ u₂ hview
    refine ⟨t₁, t₂, rs ++ qs, (runSteps_succ n s₁ u₁ hstep₁).trans hrun₁,
      (runSteps_succ n s₂ u₂ hstep₂).trans hrun₂, hview', ?_, ?_⟩
    · rw [hresp₁', hresp₁, List.append_assoc]
    · rw [hresp₂', hresp₂, List.append_assoc]

end Sys2Proof.Machine
end

section
/-! PROOFS. 20_memory.md section 4 and 60_exceptions.md section 3: what each command leaves unchanged.
70_reset_and_hazards.md section 1: the reset event (R140). -/

namespace Sys2Proof.Machine

/-- Every command keeps the pending moves and the earlier responses and adds one response. -/
theorem exec_keeps_host (i : Instr) (s t : State) (h : exec i s = .next t) :
    t.input = s.input ∧ ∃ r, t.responses = s.responses ++ [r] := by
  obtain ⟨f, hexec, u, r, hf⟩ := exec_answersOnce i s
  cases h.symm.trans ((hexec s).trans (congrArg Host.Outcome.next (hf s.input s.responses)))
  exact ⟨rfl, r, rfl⟩

/-- What the rule of a command lets it write on an unfaulted block: the match of the frame statement, by name. -/
def WithinFrame (i : Instr) (s t : State) : Prop :=
  match i with
  | .nop _ => SameBlock s t
  | .pidgen _ =>
    t.acc = s.acc ∧ t.cnt = s.cnt ∧ t.phase = s.phase ∧ (t.err = s.err ∨ t.err = 1#3)
  | .ckinitC _ => t.err = s.err
  | .ckinitE _ => t.err = s.err
  | .ckadd _ => t.phase = s.phase ∧ (t.err = s.err ∨ t.err = 2#3 ∨ t.err = 3#3)
  | .ckfin _ => t.acc = s.acc ∧ t.cnt = s.cnt ∧ (t.err = s.err ∨ t.err = 2#3 ∨ t.err = 3#3)

theorem withinFrame_of_sameBlock (i : Instr) (s t : State) (h : SameBlock s t) :
    WithinFrame i s t := by
  have ⟨hacc, hcnt, hphase, herr⟩ := h
  cases i with
  | nop _ => exact h
  | pidgen _ => exact ⟨hacc, hcnt, hphase, .inl herr⟩
  | ckinitC _ => exact herr
  | ckinitE _ => exact herr
  | ckadd _ => exact ⟨hphase, .inl herr⟩
  | ckfin _ => exact ⟨hacc, hcnt, .inl herr⟩

theorem exec_withinFrame (i : Instr) (s t : State) (he : s.err = 0#3) (h : exec i s = .next t) :
    WithinFrame i s t := by
  cases i with
  | nop arg =>
    cases h.symm.trans (exec_nop arg s he)
    exact ⟨rfl, rfl, rfl, rfl⟩
  | pidgen arg =>
    by_cases ha : arg.toNat ≤ 63
    · cases h.symm.trans (exec_pidgen_of_le arg s he ha)
      exact ⟨rfl, rfl, rfl, .inl rfl⟩
    · cases h.symm.trans (exec_pidgen_of_gt arg s he (by omega))
      exact ⟨rfl, rfl, rfl, .inr rfl⟩
  | ckinitC arg =>
    cases h.symm.trans (exec_ckinitC arg s he)
    rfl
  | ckinitE pid =>
    cases h.symm.trans (exec_ckinitE pid s he)
    rfl
  | ckadd b =>
    obtain ⟨-, hseq⟩ | ⟨-, -, hlen⟩ | ⟨-, -, hadd⟩ := execCkadd_cases b s he
    · cases h.symm.trans hseq
      exact ⟨rfl, .inr (.inr rfl)⟩
    · cases h.symm.trans hlen
      exact ⟨rfl, .inr (.inl rfl)⟩
    · cases h.symm.trans hadd
      exact ⟨rfl, .inl rfl⟩
  | ckfin arg =>
    obtain ⟨-, hseq⟩ | ⟨-, -, hlen⟩ | ⟨-, -, hfin⟩ := execCkfin_cases arg s he
    · cases h.symm.trans hseq
      exact ⟨rfl, rfl, .inr (.inr rfl)⟩
    · cases h.symm.trans hlen
      exact ⟨rfl, rfl, .inr (.inl rfl)⟩
    · cases h.symm.trans hfin
      exact ⟨rfl, rfl, .inl rfl⟩

/-- Settles O37: the host's lists by `exec_keeps_host`; a faulted block keeps the whole block, an unfaulted one what the
command's rule does not name. -/
theorem commandFrame : Obligations.CommandFrame := by
  intro i s t h
  obtain ⟨hin, hresp⟩ := exec_keeps_host i s t h
  have hfaulted (he : s.err ≠ 0#3) : SameBlock s t := by
    cases h.symm.trans (exec_of_err_ne i s he)
    exact ⟨rfl, rfl, rfl, rfl⟩
  have hframe : WithinFrame i s t := by
    by_cases he : s.err = 0#3
    · exact exec_withinFrame i s t he h
    · exact withinFrame_of_sameBlock i s t (hfaulted he)
  exact ⟨hin, hresp, hfaulted, hframe⟩

/-- Settles O50: the step on a reset event is `resetBlock` on the state with the event taken. -/
theorem resetEventMakesTheResetState : Obligations.ResetEventMakesTheResetState := fun s rest hin =>
  step_of_cons s .reset rest hin

end Sys2Proof.Machine
end

section
/-! PROOFS. Runs. 70_reset_and_hazards.md section 5: a run ends with the moves and answers each command once (R152);
20_memory.md section 6: later moves do not matter (R36); 41_checksum.md section 4: the commands compute the function,
with neutral commands anywhere between (R98). -/

namespace Sys2Proof.Machine

/-! ### Any moves -/

/-- One move leads to one block state and adds its responses, one for a command and none for a reset, whatever moves are
still to come. -/
theorem runMove_uniform (m : HostMove) (s : State) :
    ∃ (t : State) (rs : List Resp), rs.length = commandCount [m] ∧
      ∀ later, runMove m { s with input := later } =
        .next { t with input := later, responses := s.responses ++ rs } := by
  cases m with
  | command w =>
    obtain ⟨f, hrun, t, r, hf⟩ := runCommand_answersOnce w s
    exact ⟨t, [r], rfl, fun later =>
      (hrun _).trans (congrArg Host.Outcome.next (hf later s.responses))⟩
  | reset =>
    exact ⟨State.reset, [], rfl, fun later => by rw [List.append_nil]; rfl⟩

theorem commandCount_cons (m : HostMove) (moves : List HostMove) :
    commandCount (m :: moves) = commandCount [m] + commandCount moves := by
  rw [← List.singleton_append, commandCount, List.filter_append, List.length_append]
  rfl

/-- The same of a run of several moves. -/
theorem runSteps_uniform (now : List HostMove) (s : State) :
    ∃ (t : State) (rs : List Resp), rs.length = commandCount now ∧
      ∀ later, runSteps now.length { s with input := now ++ later } =
        .next { t with input := later, responses := s.responses ++ rs } := by
  induction now generalizing s with
  | nil => exact ⟨s, [], rfl, fun later => by rw [List.append_nil]; rfl⟩
  | cons m now ih =>
    obtain ⟨u, rs, hcount, hmove⟩ := runMove_uniform m s
    obtain ⟨t, qs, hcount', hrun⟩ := ih { u with responses := s.responses ++ rs }
    refine ⟨t, rs ++ qs, ?_, fun later => ?_⟩
    · rw [List.length_append, hcount, hcount', ← commandCount_cons]
    · have hstep := (step_of_cons { s with input := m :: now ++ later } m _ rfl).trans (hmove _)
      rw [← List.append_assoc]
      exact (runSteps_succ _ _ _ hstep).trans (hrun later)

/-- Settles O58: the run of all pending moves, with none behind them. -/
theorem runAnswersEveryCommandOnce : Obligations.RunAnswersEveryCommandOnce := by
  intro s
  obtain ⟨t, rs, hcount, hrun⟩ := runSteps_uniform s.input s
  have hall := hrun []
  rw [List.append_nil] at hall
  exact ⟨_, rs, hall, rfl, rfl, hcount⟩

/-- Settles O59: `runSteps_uniform` with no move behind and with `later` behind. -/
theorem laterMovesDoNotMatter : Obligations.LaterMovesDoNotMatter := by
  intro s now later
  obtain ⟨t, rs, -, hrun⟩ := runSteps_uniform now s
  have hall := hrun []
  rw [List.append_nil] at hall
  exact ⟨{ t with responses := s.responses ++ rs }, hall, hrun later⟩

/-! ### A checksum with neutral commands between -/

/-- From the block state of `s` the command `i` leads to that of `t` and answers `r`, whatever the host's two
lists hold. -/
def Does (i : Instr) (s t : State) (r : Resp) : Prop :=
  ∀ rest rs, exec i { s with input := rest, responses := rs } =
    .next { t with input := rest, responses := rs ++ [r] }

theorem does_neutral (i : Instr) (s : State) (hi : neutral i = true) (h : s.err = 0#3) :
    ∃ v, Does i s s ⟨.ok, v⟩ := by
  obtain ⟨v, hexec⟩ := exec_neutral i hi
  exact ⟨v, fun _ _ => hexec _ h⟩

theorem does_ckinitOf (pid : Byte) (enhanced : Bool) (s : State) (h : s.err = 0#3) :
    Does (ckinitOf pid enhanced) s (startSum (accStart pid enhanced) s) ⟨.ok, 0x00#8⟩ :=
  fun _ _ => exec_ckinitOf pid enhanced _ h

theorem does_ckadd (b : Byte) (s : State) (h : s.err = 0#3) (hp : s.phase = .accum)
    (hc : s.cnt ≠ 8#4) : Does (.ckadd b) s (addByte b s) ⟨.ok, 0x00#8⟩ :=
  fun _ _ => exec_ckadd_of_room b _ h hp hc

theorem does_ckfin (a : Byte) (s : State) (h : s.err = 0#3) (hp : s.phase = .accum)
    (hc : s.cnt ≠ 0#4) : Does (.ckfin a) s (endSum s) ⟨.ok, complement s.acc⟩ :=
  fun _ _ => exec_ckfin_of_counted a _ h hp hc

/-- The commands `is`, one after the other and never on a faulted block, lead from `s` to `t` and answer `rs`. -/
inductive Computes : List Instr → State → State → List Resp → Prop where
  | nil {s : State} (err : s.err = 0#3) : Computes [] s s []
  | cons {i : Instr} {is : List Instr} {s t u : State} {r : Resp} {rs : List Resp}
      (err : s.err = 0#3) (first : Does i s t r) (later : Computes is t u rs) :
      Computes (i :: is) s u (r :: rs)

theorem Computes.err_start {is : List Instr} {s t : State} {rs : List Resp}
    (h : Computes is s t rs) : s.err = 0#3 := by
  cases h with
  | nil err => exact err
  | cons err _ _ => exact err

theorem Computes.err_end {is : List Instr} {s t : State} {rs : List Resp}
    (h : Computes is s t rs) : t.err = 0#3 := by
  induction h with
  | nil err => exact err
  | cons _ _ _ ih => exact ih

theorem Computes.append {is js : List Instr} {s t u : State} {rs qs : List Resp}
    (h : Computes is s t rs) (h' : Computes js t u qs) : Computes (is ++ js) s u (rs ++ qs) := by
  induction h with
  | nil => exact h'
  | cons err first _ ih => exact .cons err first (ih h')

theorem runSteps_succ_of_does (i : Instr) (s t : State) (r : Resp) (n : Nat) (moves : List HostMove)
    (rs : List Resp) (h : Does i s t r) :
    runSteps (n + 1) { s with input := .command (encode i) :: moves, responses := rs } =
      runSteps n { t with input := moves, responses := rs ++ [r] } :=
  runSteps_succ n _ _ ((step_of_encoded i _ moves rfl).trans (h moves rs))

theorem answersOf_cons_of_neutral (i : Instr) (is : List Instr) (r : Resp) (rs : List Resp)
    (h : neutral i = true) : answersOf (i :: is) (r :: rs) = answersOf is rs := by
  simp [answersOf, h]

theorem answersOf_cons_of_not_neutral (i : Instr) (is : List Instr) (r : Resp) (rs : List Resp)
    (h : ¬ neutral i = true) : answersOf (i :: is) (r :: rs) = r :: answersOf is rs := by
  simp [answersOf, h]

/-- Neutral commands may be inserted anywhere: they change nothing on an unfaulted block, and the block is unfaulted
throughout (41_checksum.md R98). -/
theorem runSteps_of_computes_filter (is : List Instr) (s t : State) (answers : List Resp)
    (h : Computes (is.filter fun i => !neutral i) s t answers) (rest : List HostMove)
    (rs₀ : List Resp) :
    ∃ rs, runSteps is.length { s with input := sendAll is ++ rest, responses := rs₀ } =
        .next { t with input := rest, responses := rs₀ ++ rs } ∧
      rs.length = is.length ∧ answersOf is rs = answers := by
  induction is generalizing s answers rs₀ with
  | nil =>
    cases h
    exact ⟨[], by rw [List.append_nil]; rfl, rfl, rfl⟩
  | cons i is ih =>
    by_cases hi : neutral i = true
    · rw [List.filter_cons_of_neg (by simp [hi])] at h
      obtain ⟨v, hdoes⟩ := does_neutral i s hi h.err_start
      obtain ⟨rs, hrun, hlen, hanswers⟩ := ih s answers h (rs₀ ++ [⟨.ok, v⟩])
      refine ⟨⟨.ok, v⟩ :: rs, ?_, congrArg (· + 1) hlen, ?_⟩
      · rw [List.append_cons]
        exact (runSteps_succ_of_does i s s _ _ _ _ hdoes).trans hrun
      · rw [answersOf_cons_of_neutral i is _ rs hi, hanswers]
    · rw [List.filter_cons_of_pos (by simp [hi])] at h
      cases h with
      | @cons _ _ _ u _ r answers _ hdoes hlater =>
        obtain ⟨rs, hrun, hlen, hanswers⟩ := ih u answers hlater (rs₀ ++ [r])
        refine ⟨r :: rs, ?_, congrArg (· + 1) hlen, ?_⟩
        · rw [List.append_cons]
          exact (runSteps_succ_of_does i s u _ _ _ _ hdoes).trans hrun
        · rw [answersOf_cons_of_not_neutral i is r rs hi, hanswers]

/-- `CKADD`s with room for all of them fold their bytes in and count them. -/
theorem computes_ckadds (bs : List Byte) (s : State) (h : s.err = 0#3) (hp : s.phase = .accum)
    (hroom : s.cnt.toNat + bs.length ≤ 8) :
    ∃ t, Computes (bs.map Instr.ckadd) s t (List.replicate bs.length ⟨.ok, 0x00#8⟩) ∧
      t.acc = accAfter s.acc bs ∧ t.cnt.toNat = s.cnt.toNat + bs.length ∧ t.phase = .accum := by
  induction bs generalizing s with
  | nil => exact ⟨s, .nil h, rfl, rfl, hp⟩
  | cons b bs ih =>
    rw [List.length_cons] at hroom
    have hcnt : (cntSucc s.cnt).toNat = s.cnt.toNat + 1 := cntSucc_toNat s.cnt (by omega)
    have hroom' : (cntSucc s.cnt).toNat + bs.length ≤ 8 := by omega
    obtain ⟨t, hlater, hacc, htcnt, htp⟩ := ih (addByte b s) h hp hroom'
    refine ⟨t, .cons h (does_ckadd b s h hp (cnt_ne_eight_of_lt s.cnt (by omega))) hlater, hacc,
      ?_, htp⟩
    calc t.cnt.toNat = (cntSucc s.cnt).toNat + bs.length := htcnt
      _ = s.cnt.toNat + (bs.length + 1) := by omega

/-- A `CKINIT` and up to eight `CKADD`s, from any unfaulted state. -/
theorem computes_ckinit_ckadds (pid : Byte) (enhanced : Bool) (payload : List Byte) (s : State)
    (h : s.err = 0#3) (hlen : payload.length ≤ 8) :
    ∃ t, Computes (ckinitOf pid enhanced :: payload.map Instr.ckadd) s t
        (List.replicate (payload.length + 1) ⟨.ok, 0x00#8⟩) ∧
      t.acc = accAfter (accStart pid enhanced) payload ∧ t.cnt.toNat = payload.length ∧
      t.phase = .accum := by
  obtain ⟨t, hadds, hacc, hcnt, hp⟩ :=
    computes_ckadds payload (startSum (accStart pid enhanced) s) h rfl
      ((Nat.zero_add _).trans_le hlen)
  exact ⟨t, .cons h (does_ckinitOf pid enhanced s h) hadds, hacc,
    hcnt.trans (Nat.zero_add _), hp⟩

/-- Settles O55: the commands that are not neutral compute `acc_k`, and neutral ones may stand between. -/
theorem ckaddsAccumulateThePayload : Obligations.CkaddsAccumulateThePayload := by
  intro s pid enhanced payload is rest h hlen hfilter hin
  obtain ⟨t, hcomputes, hacc, hcnt, hp⟩ := computes_ckinit_ckadds pid enhanced payload s h hlen
  obtain ⟨rs, hrun, hrs, hanswers⟩ :=
    runSteps_of_computes_filter is s t _ (hfilter ▸ hcomputes) rest s.responses
  rw [← hin] at hrun
  exact ⟨_, rs, hrun, rfl, rfl, hrs, hanswers, hacc, hcnt, hp, hcomputes.err_end⟩

/-- Settles O56: the `CKFIN` answers the complement of `acc_n`, which is the checksum. -/
theorem commandsComputeTheChecksum : Obligations.CommandsComputeTheChecksum := by
  intro s pid enhanced payload a is rest h hmin hmax hfilter hin
  obtain ⟨t, hcomputes, hacc, hcnt, hp⟩ := computes_ckinit_ckadds pid enhanced payload s h hmax
  have hcounted : t.cnt ≠ 0#4 := by
    intro h0
    rw [h0, BitVec.toNat_zero] at hcnt
    omega
  have hfin : Computes [.ckfin a] t (endSum t) [⟨.ok, complement t.acc⟩] :=
    .cons hcomputes.err_end (does_ckfin a t hcomputes.err_end hp hcounted)
      (.nil hcomputes.err_end)
  have hall := hcomputes.append hfin
  rw [List.cons_append, ← hfilter] at hall
  obtain ⟨rs, hrun, hrs, hanswers⟩ :=
    runSteps_of_computes_filter is s (endSum t) _ hall rest s.responses
  rw [← hin] at hrun
  rw [hacc] at hanswers
  exact ⟨_, rs, _, hrun, rfl, rfl, hrs, checksum_of_length pid payload enhanced ⟨hmin, hmax⟩,
    hanswers, rfl, hcomputes.err_end⟩

end Sys2Proof.Machine
end
